-- ==== Sys2Proof/Word.lean ====
section
/-! DEFINITION. The words of the display block: its bytes, palette indices, command words, colours and palettes.
Widths follow spec/00_scope.md R9, spec/10_state.md R20, R21 and spec/30_encoding.md R70. -/

namespace Sys2Proof

/-- One byte of the pixel buffer, or one colour channel (R20, R21). -/
abbrev Byte := BitVec 8

/-- A palette index (colour index), 4 bits wide (R9): the value of one pixel. -/
abbrev Index := BitVec 4

/-- One command word (R70). -/
abbrev CmdWord := BitVec 64

/-- One raw 12-bit argument field of a command word (R70). -/
abbrev ArgField := BitVec 12

/-- A packed 24-bit colour (R180). -/
abbrev Colour := BitVec 24

/-- One palette entry: three 8-bit channels (R21). -/
structure Rgb where
  r : Byte
  g : Byte
  b : Byte
  deriving DecidableEq, Repr, Inhabited

/-- The colour table: exactly 16 entries (R9, R21). -/
abbrev Palette := Vector Rgb 16

/-- A frame: a list of 24-bit colours in row-major order (R33). -/
abbrev Frame := List Colour

end Sys2Proof
end

