-- ==== Sys2Proof/Syntax.lean ====
section
/-! DEFINITION. The nine commands of VES-CMD version 1, one constructor per row of spec/opcode_table.json, with the operands
of spec/30_encoding.md R75 as mathematical integers (spec/00_scope.md R12). -/

namespace Sys2Proof

/-- A command. Arguments carried as signed fields are integers (R72); RDBYTE's address is unsigned (R78). Which values an
argument may have at all is WellFormed's; which values the block accepts is checked when the command runs (R224). -/
inductive Instr where
  /-- PSET `pset(x, y, c)` (R104). -/
  | pset (x y c : Int)
  /-- SPAN `span(x1, y1, x2, y2, c)` (R127). -/
  | span (x1 y1 x2 y2 c : Int)
  /-- RECTFILL `rectfill(x1, y1, x2, y2, c)` (R140). -/
  | rectfill (x1 y1 x2 y2 c : Int)
  /-- LINE `line(x1, y1, x2, y2, c)` (R160). -/
  | line (x1 y1 x2 y2 c : Int)
  /-- CSET `cset(c, r, g, b)` (R181). -/
  | cset (c r g b : Int)
  /-- PGET `pget(x, y)` (R105). -/
  | pget (x y : Int)
  /-- GETCOLOR `getcolor(c)` (R182). -/
  | getcolor (c : Int)
  /-- RDBYTE `rdbyte(addr)` (R110). -/
  | rdbyte (addr : Nat)
  /-- PRESENT `present()` (R200). -/
  | present
  deriving DecidableEq, Repr

end Sys2Proof
end

