-- ==== Sys2Proof/WellFormed.lean ====
section
/-! DEFINITION. Which commands can be written as a command word: every signed argument fits a 12-bit two's complement field
and RDBYTE's address fits 24 bits (spec/30_encoding.md R72, R73, R78, R81). -/

namespace Sys2Proof

/-- An argument a 12-bit signed field can carry: -2048 to 2047 (R72). -/
def fitsField (v : Int) : Bool := decide (-2048 ≤ v ∧ v ≤ 2047)

/-- An address RDBYTE's two raw fields can carry: 0 to 2^24 - 1 (R78). -/
def fitsAddr (a : Nat) : Bool := decide (a < 2 ^ 24)

/-- A command whose arguments can all be expressed in a command word (R73, R81). -/
def Instr.wf : Instr → Bool
  | .pset x y c => fitsField x && fitsField y && fitsField c
  | .span x1 y1 x2 y2 c => fitsField x1 && fitsField y1 && fitsField x2 && fitsField y2 && fitsField c
  | .rectfill x1 y1 x2 y2 c => fitsField x1 && fitsField y1 && fitsField x2 && fitsField y2 && fitsField c
  | .line x1 y1 x2 y2 c => fitsField x1 && fitsField y1 && fitsField x2 && fitsField y2 && fitsField c
  | .cset c r g b => fitsField c && fitsField r && fitsField g && fitsField b
  | .pget x y => fitsField x && fitsField y
  | .getcolor c => fitsField c
  | .rdbyte a => fitsAddr a
  | .present => true

end Sys2Proof
end

