-- ==== Sys2Proof/Decode.lean ====
section
/-! DEFINITION. Decoding and encoding of command words (spec/30_encoding.md). Decoding is total (R79): a word is one of the
nine commands, or an illegal command with the reason the block reports (spec/60_exceptions.md R223). The checks of reserved
fields stand here, since R223 applies them before the command's own pseudocode. -/

namespace Sys2Proof

/-- Why a word is no command (R223). -/
inductive Illegal where
  /-- The opcode is `0x0` or `0xA` to `0xF` (R77). -/
  | opcode
  /-- Reserved field `k` is nonzero and no lower-numbered reserved field is (R76). -/
  | reserved (k : Fin 5)
  deriving DecidableEq, Repr

/-- What ERRARG names for an illegal word: 7 for the opcode, else the reserved field's number (R223). -/
def Illegal.errarg : Illegal → BitVec 3
  | .opcode => 7
  | .reserved k => BitVec.ofNat 3 k

/-- The outcome of decoding one word. -/
inductive Decoded where
  /-- The word is this command. -/
  | command (i : Instr)
  /-- The word is ILLEGAL_COMMAND. -/
  | illegal (e : Illegal)
  deriving DecidableEq, Repr

/-- `op = w[63:60]` (R71). -/
def opField (w : CmdWord) : BitVec 4 := w.extractLsb' 60 4

/-- The raw field `ak`: `a0 = w[59:48]`, each further field 12 bits lower, `a4 = w[11:0]` (R72). -/
def argField (w : CmdWord) (k : Fin 5) : ArgField := w.extractLsb' (48 - 12 * k) 12

/-- `Ak = sext_12(ak)` (R72). -/
def signedArg (w : CmdWord) (k : Fin 5) : Int := (argField w k).toInt

/-- RDBYTE's address `{a1, a0} = a1 * 4096 + a0`, unsigned (R78). -/
def addrArg (w : CmdWord) : Nat := (argField w 1).toNat * 4096 + (argField w 0).toNat

/-- `CheckReserved(k1, ..., kn)` (R223): the first of the listed fields that is nonzero makes the word illegal. -/
def guardReserved (w : CmdWord) : List (Fin 5) → Instr → Decoded
  | [], i => .command i
  | k :: ks, i => if argField w k = 0 then guardReserved w ks i else .illegal (.reserved k)

/-- Decode one command word (R75, R77, R79). -/
def decode (w : CmdWord) : Decoded :=
  match (opField w).toNat with
  | 1 => guardReserved w [3, 4] (.pset (signedArg w 0) (signedArg w 1) (signedArg w 2))
  | 2 => guardReserved w []
      (.span (signedArg w 0) (signedArg w 1) (signedArg w 2) (signedArg w 3) (signedArg w 4))
  | 3 => guardReserved w []
      (.rectfill (signedArg w 0) (signedArg w 1) (signedArg w 2) (signedArg w 3) (signedArg w 4))
  | 4 => guardReserved w []
      (.line (signedArg w 0) (signedArg w 1) (signedArg w 2) (signedArg w 3) (signedArg w 4))
  | 5 => guardReserved w [4] (.cset (signedArg w 0) (signedArg w 1) (signedArg w 2) (signedArg w 3))
  | 6 => guardReserved w [2, 3, 4] (.pget (signedArg w 0) (signedArg w 1))
  | 7 => guardReserved w [1, 2, 3, 4] (.getcolor (signedArg w 0))
  | 8 => guardReserved w [2, 3, 4] (.rdbyte (addrArg w))
  | 9 => guardReserved w [0, 1, 2, 3, 4] .present
  | _ => .illegal .opcode

/-- The opcode of a command (R77). -/
def Instr.opcode : Instr → BitVec 4
  | .pset .. => 1
  | .span .. => 2
  | .rectfill .. => 3
  | .line .. => 4
  | .cset .. => 5
  | .pget .. => 6
  | .getcolor .. => 7
  | .rdbyte .. => 8
  | .present => 9

/-- The 12-bit two's complement pattern of an argument (R80). -/
def fieldOf (v : Int) : ArgField := BitVec.ofInt 12 v

/-- The five raw fields of a command, `a0` first, unused ones 0 (R75, R76, R78). -/
def Instr.fields : Instr → ArgField × ArgField × ArgField × ArgField × ArgField
  | .pset x y c => (fieldOf x, fieldOf y, fieldOf c, 0, 0)
  | .span x1 y1 x2 y2 c => (fieldOf x1, fieldOf y1, fieldOf x2, fieldOf y2, fieldOf c)
  | .rectfill x1 y1 x2 y2 c => (fieldOf x1, fieldOf y1, fieldOf x2, fieldOf y2, fieldOf c)
  | .line x1 y1 x2 y2 c => (fieldOf x1, fieldOf y1, fieldOf x2, fieldOf y2, fieldOf c)
  | .cset c r g b => (fieldOf c, fieldOf r, fieldOf g, fieldOf b, 0)
  | .pget x y => (fieldOf x, fieldOf y, 0, 0, 0)
  | .getcolor c => (fieldOf c, 0, 0, 0, 0)
  | .rdbyte a => (BitVec.ofNat 12 a, BitVec.ofNat 12 (a / 4096), 0, 0, 0)
  | .present => (0, 0, 0, 0, 0)

/-- The word `{op, a0, a1, a2, a3, a4}` (R70). -/
def packWord (op : BitVec 4) : ArgField × ArgField × ArgField × ArgField × ArgField → CmdWord
  | (a0, a1, a2, a3, a4) => op ++ a0 ++ a1 ++ a2 ++ a3 ++ a4

/-- The word of a command (R80). -/
def encode (i : Instr) : CmdWord := packWord i.opcode i.fields

/-- The decode table of R79: the opcode, match and mask of each row of spec/opcode_table.json. The decoder above does not
use it; that the two agree is a statement. -/
def decodeTable : List (BitVec 4 × CmdWord × CmdWord) :=
  [(1, 0x1000000000000000, 0xF000000000FFFFFF),
   (2, 0x2000000000000000, 0xF000000000000000),
   (3, 0x3000000000000000, 0xF000000000000000),
   (4, 0x4000000000000000, 0xF000000000000000),
   (5, 0x5000000000000000, 0xF000000000000FFF),
   (6, 0x6000000000000000, 0xF000000FFFFFFFFF),
   (7, 0x7000000000000000, 0xF000FFFFFFFFFFFF),
   (8, 0x8000000000000000, 0xF000000FFFFFFFFF),
   (9, 0x9000000000000000, 0xFFFFFFFFFFFFFFFF)]

/-- The word whose low `nbits` bits are those of `w`, every further bit 0. The command word is delivered whole, so no byte
order applies (spec/20_memory.md R56). -/
def tableWord (nbits w : Nat) : CmdWord := BitVec.ofNat 64 (w % 2 ^ nbits)

/-- The command the decoder reads from a word numbered as spec/opcode_table.json numbers it. -/
def decodeTableWord (nbits w : Nat) : Option Instr :=
  match decode (tableWord nbits w) with
  | .command i => some i
  | .illegal _ => none

end Sys2Proof
end

