-- ==== Sys2Proof/Config.lean ====
section
/-! DEFINITION. The parameters of one block instance (spec/00_scope.md R7 to R10): the grid's width and height, what is
derived from them, and the reset palette, which the spec leaves open. -/

namespace Sys2Proof

/-- The parameters that are fixed for the life of one instance (R7, spec/10_state.md R25). -/
structure Config where
  /-- `W`, the grid width in pixels. -/
  w : Nat
  /-- `H`, the grid height in pixels. -/
  h : Nat
  deriving DecidableEq, Repr

/-- `NPIX = W * H`, the pixel count (R8). -/
def Config.npix (c : Config) : Nat := c.w * c.h

/-- `NBYTES = (NPIX + 1) div 2`, the length in bytes of the pixel buffer (R8). -/
def Config.nbytes (c : Config) : Nat := (c.npix + 1) / 2

/-- The legal values of the parameters (R7): `1 <= W <= 2047` and `1 <= H <= 2047`. -/
abbrev Config.Legal (c : Config) : Prop := 1 ≤ c.w ∧ c.w ≤ 2047 ∧ 1 ≤ c.h ∧ c.h ≤ 2047

/-- The observed configuration, 128 x 128 (R7). DESIGN CHOICE: State.reset uses it (log entry 1). -/
def Config.observed : Config := ⟨128, 128⟩

/-- `P0`, the palette installed at reset where no reset input supplies one. The spec gives no contents and lets a model
assume none (R10, spec/10_state.md R41), so it is an opaque constant: nothing can evaluate it or prove a value of it.
DESIGN CHOICE (log entry 2). -/
opaque Config.p0 : Palette

end Sys2Proof
end

