-- ==== Sys2Proof/Machine/State.lean ====
section
/-! DEFINITION. The state of one display block (spec/10_state.md), its ports as plain data, and its state after reset. -/

namespace Sys2Proof.Machine

/-- Why a step can stop. The block itself never traps (spec/60_exceptions.md R228); an error is a completed step that writes
the response registers (R222). -/
inductive Fault where
  /-- Raised by `step` for a command word presented before the first reset: the spec gives such a command no step
  (spec/70_reset_and_hazards.md R252; `stuck` in spec/93_implementation_defined.md). Safe: nothing is claimed of it. -/
  | commandBeforeReset
  deriving DecidableEq, Repr

/-- Why an instruction can have no meaning. -/
inductive Refusal where
  /-- Raised by `exec` for an instruction that has no meaning yet. No instruction of this model is refused. Safe. -/
  | notModelled (mnemonic : String)
  deriving DecidableEq, Repr

/-- The pixel buffer's contents: (address, byte) pairs in canonical form, see `Memory.wf` in Machine/Ops.lean. -/
abbrev Memory := List Host.Cell

/-- What the host does at a port of the block. -/
inductive HostInput where
  /-- The reset input `RST(pal)` (R30). -/
  | reset (pal : Palette)
  /-- The command port `CMD(w)` (R31). -/
  | command (w : CmdWord)
  deriving DecidableEq, Repr

/-- One block: the spec's tuple `S = (FB, PAL, STATUS, ERRARG, RESULT)`, the instance's parameters, and the model's own
fields for the ports. -/
structure State where
  /-- `W` and `H`, fixed for the life of the instance (R25). No step changes them (log entry 1). -/
  cfg : Config
  /-- `FB` (R20). -/
  fb : Memory
  /-- `PAL` (R21). -/
  pal : Palette
  /-- `STATUS` (R22). -/
  status : BitVec 8
  /-- `ERRARG` (R23). -/
  errarg : BitVec 3
  /-- `RESULT` (R24). -/
  result : BitVec 32
  /-- The model's own: what the frame output port carried during the most recent step (R33, R35; log entry 4). -/
  frameOut : Option Frame
  /-- The model's own: the block has been reset at least once (R252; log entry 5). -/
  wasReset : Bool
  /-- The model's own: what the host will present next, first input first. It is the host's schedule and no queue of the
  block, whose command port has none (R31; log entry 3). -/
  host : List HostInput
  deriving DecidableEq, Repr

/-- The reset state for a palette `P0 = pal` (R40, R41, R42, R250), with the host's further inputs. -/
def State.afterReset (cfg : Config) (pal : Palette) (host : List HostInput) : State :=
  { cfg := cfg
    fb := []
    pal := pal
    status := 0
    errarg := 0
    result := 0
    frameOut := none
    wasReset := true
    host := host }

/-- The machine right after reset: the observed configuration (log entry 1), the open palette `P0` (log entry 2), and no
input presented yet. -/
def State.reset : State := State.afterReset Config.observed Config.p0 []

/-- The response triple `(STATUS, ERRARG, RESULT)` the block returns at the end of a command (R32). -/
def State.response (s : State) : BitVec 8 × BitVec 3 × BitVec 32 := (s.status, s.errarg, s.result)

end Sys2Proof.Machine
end

