-- ==== Sys2Proof/Machine/Flags.lean ====
section
/-! DEFINITION. The completion codes of STATUS, the block's only condition flags (spec/10_state.md R22, R25;
spec/60_exceptions.md R220), and the success epilogue `Done` (R226). -/

namespace Sys2Proof.Machine

/-- STATUS 0: the command succeeded (R220). -/
def statusOk : BitVec 8 := 0

/-- STATUS 1, ARG_OUT_OF_RANGE (R220). -/
def statusArgOutOfRange : BitVec 8 := 1

/-- STATUS 2, ILLEGAL_COMMAND (R220). -/
def statusIllegalCommand : BitVec 8 := 2

/-- `Done(v)`: `STATUS <- 0`, `ERRARG <- 0`, `RESULT <- v` (R226). -/
def State.done (v : BitVec 32) (s : State) : State :=
  { s with status := statusOk, errarg := 0, result := v }

end Sys2Proof.Machine
end

