-- ==== Sys2Proof/Machine/Ops.lean ====
section
/-! DEFINITION. The named operations over the block's state: bytes and nibbles of the pixel buffer (spec/20_memory.md,
spec/40_pixel_buffer.md section 1), the palette, the frame port, raising an error (the block's only form of exception,
spec/60_exceptions.md R222) and the reset input (spec/70_reset_and_hazards.md R250). -/

namespace Sys2Proof.Machine

/-- What a byte of `FB` that no entry lists reads as: 0x00, its reset contents (R40; log entry 7). -/
def unlistedByte : Byte := 0x00

/-- `FB[a]` (R13, R20). The block reads it for `a < NBYTES` only. -/
def Memory.read : Memory → Nat → Byte
  | [], _ => unlistedByte
  | (b, v) :: m, a => if a = b then v else Memory.read m a

/-- `FB[a] <- v` (R13, R20), keeping the canonical form. The block writes it for `a < NBYTES` only. -/
def Memory.write : Memory → Nat → Byte → Memory
  | [], a, v => if v = unlistedByte then [] else [(a, v)]
  | (b, u) :: m, a, v =>
    if a < b then (if v = unlistedByte then (b, u) :: m else (a, v) :: (b, u) :: m)
    else if a = b then (if v = unlistedByte then m else (a, v) :: m)
    else (b, u) :: Memory.write m a v

/-- Canonical from address `lo` on: addresses at least `lo` and strictly rising, no entry equal to the unlisted byte. -/
def Memory.wfFrom : Nat → Memory → Bool
  | _, [] => true
  | lo, (a, v) :: m => decide (lo ≤ a) && decide (v ≠ unlistedByte) && Memory.wfFrom (a + 1) m

/-- The canonical form of a memory. -/
def Memory.wf (m : Memory) : Bool := Memory.wfFrom 0 m

/-- Byte writes of `v` to the `n` addresses from `b` on, in rising order (the loop of R120). -/
def Memory.fill (m : Memory) (b : Nat) : Nat → Byte → Memory
  | 0, _ => m
  | n + 1, v => Memory.fill (m.write b v) (b + 1) n v

/-- The low nibble of a byte, `v[3:0]`: the pixel at the even position (R53, R102). -/
def loNibble (v : Byte) : Index := v.extractLsb' 0 4

/-- The high nibble of a byte, `v[7:4]`: the pixel at the odd position (R53, R102). -/
def hiNibble (v : Byte) : Index := v.extractLsb' 4 4

/-- `{hi, lo}`: a pair of nibbles packs to a byte (R102). -/
def packByte (hi lo : Index) : Byte := hi ++ lo

/-- The fill byte `Fill(c) = {c, c}` (R102). -/
def fillByte (c : Index) : Byte := packByte c c

/-- `NibRead(p)`: the pixel at linear position `p` (R100). -/
def nibRead (fb : Memory) (p : Nat) : Index :=
  if p % 2 = 0 then loNibble (fb.read (p / 2)) else hiNibble (fb.read (p / 2))

/-- `NibWrite(p, c)`: write the nibble of position `p`, keep the other nibble of its byte (R101). -/
def nibWrite (fb : Memory) (p : Nat) (c : Index) : Memory :=
  if p % 2 = 0 then fb.write (p / 2) (packByte (hiNibble (fb.read (p / 2))) c)
  else fb.write (p / 2) (packByte c (loNibble (fb.read (p / 2))))

/-- Replace the pixel buffer. -/
def State.setFb (fb : Memory) (s : State) : State := { s with fb := fb }

/-- `PAL[i] <- e` (R13, R21). -/
def State.setPal (i : Index) (e : Rgb) (s : State) : State := { s with pal := s.pal.set i.toNat e i.isLt }

/-- `PAL[i]` (R13, R21). -/
def palEntry (pal : Palette) (i : Index) : Rgb := pal[i.toNat]'i.isLt

/-- `emit Frame(f)`: hand `f` to the frame output port (R13, R33). -/
def State.emitFrame (f : Frame) (s : State) : State := { s with frameOut := some f }

/-- A failed check: the STATUS code and what ERRARG names (R220). -/
structure CmdError where
  code : BitVec 8
  arg : BitVec 3
  deriving DecidableEq, Repr

/-- `raise Error(code, arg)`: `STATUS <- code`, `ERRARG <- arg`, `RESULT <- 0`, and nothing else (R222). -/
def State.raiseError (e : CmdError) (s : State) : State :=
  { s with status := e.code, errarg := e.arg, result := 0 }

/-- What a word that decodes to ILLEGAL_COMMAND does (R223). -/
def State.illegalCommand (e : Illegal) (s : State) : State :=
  s.raiseError ⟨statusIllegalCommand, e.errarg⟩

/-- The first check that failed, in the order written (R225). -/
def firstFailure : List (Option CmdError) → Option CmdError
  | [] => none
  | some e :: _ => some e
  | none :: cs => firstFailure cs

/-- End a command: if a check failed raise its error, else take the successful state (R222, R225). -/
def finish (failure : Option CmdError) (s ok : State) : Host.Outcome State Fault Refusal :=
  match failure with
  | some e => .next (s.raiseError e)
  | none => .next ok

/-- The reset input `RST(pal)` (R30, R250, R251): every element of state takes its reset value with `P0 = pal`; the
instance keeps its parameters, and the host its further inputs. -/
def State.applyReset (pal : Palette) (s : State) : State := State.afterReset s.cfg pal s.host

/-- The block takes the host's next input: it is consumed, and nothing is on the frame port yet. -/
def State.accept (rest : List HostInput) (s : State) : State := { s with host := rest, frameOut := none }

end Sys2Proof.Machine
end

