-- ==== Sys2Proof/Machine/Operands.lean ====
section
/-! DEFINITION. The operand forms of the commands: the range checks on signed arguments (spec/60_exceptions.md R224,
spec/30_encoding.md R74, R78), the low bits a checked argument contributes, and the linear position of a pixel
(spec/20_memory.md R52). -/

namespace Sys2Proof.Machine

/-- `if not (0 <= A and A < bound) then raise Error(ARG_OUT_OF_RANGE, k)` (R224). -/
def checkRange (bound : Nat) (k : BitVec 3) (a : Int) : Option CmdError :=
  if 0 ≤ a ∧ a < bound then none else some ⟨statusArgOutOfRange, k⟩

/-- `CheckX(k, A)` (R224). -/
def checkX (c : Config) (k : BitVec 3) (a : Int) : Option CmdError := checkRange c.w k a

/-- `CheckY(k, A)` (R224). -/
def checkY (c : Config) (k : BitVec 3) (a : Int) : Option CmdError := checkRange c.h k a

/-- `CheckIndex(k, A)` (R224). -/
def checkIndex (k : BitVec 3) (a : Int) : Option CmdError := checkRange 16 k a

/-- `CheckChannel(k, A)` (R224). -/
def checkChannel (k : BitVec 3) (a : Int) : Option CmdError := checkRange 256 k a

/-- The byte address check of RDBYTE: `addr < NBYTES`, else ERRARG 0 (R78, R110). -/
def checkAddr (c : Config) (addr : Nat) : Option CmdError :=
  if addr < c.nbytes then none else some ⟨statusArgOutOfRange, 0⟩

/-- The checks of a command with two endpoints and a colour index, in field order (R127, R140, R160). -/
def checkEndpoints (c : Config) (x1 y1 x2 y2 ci : Int) : Option CmdError :=
  firstFailure [checkX c 0 x1, checkY c 1 y1, checkX c 2 x2, checkY c 3 y2, checkIndex 4 ci]

/-- `A[3:0]` of a checked colour index (R104). -/
def indexOf (a : Int) : Index := BitVec.ofInt 4 a

/-- `A[7:0]` of a checked channel (R181). -/
def channelOf (a : Int) : Byte := BitVec.ofInt 8 a

/-- `Pos(x, y) = x + y * W` (R52). -/
def pixelPos (c : Config) (x y : Int) : Nat := (x + y * c.w).toNat

end Sys2Proof.Machine
end

