-- ==== Sys2Proof/Machine/LineRasterizer.lean ====
section
/-! DEFINITION. line_rasterizer: the integer Bresenham loop and LINE (spec/43_line_rasterizer.md). -/

namespace Sys2Proof.Machine

/-- The working registers at one plot: the current point and the error term (R161; they are not state, R28). -/
structure Plot where
  x : Int
  y : Int
  err : Int
  deriving DecidableEq, Repr

/-- The plots of the loop of R162, first plot first. It ends at the end point (R163). `n` bounds the number of iterations
that step; that it never runs out for the bound `bresenham` gives is a statement (R164; log entry 9). -/
def bresenhamLoop (x2 y2 dx dy sx sy : Int) : Nat → Plot → List Plot
  | 0, p => [p]
  | n + 1, p =>
    if p.x = x2 ∧ p.y = y2 then [p]
    else
      let e2 := 2 * p.err
      let stepX : Plot := if e2 ≥ dy then ⟨p.x + sx, p.y, p.err + dy⟩ else p
      let stepXY : Plot := if e2 ≤ dx then ⟨stepX.x, stepX.y + sy, stepX.err + dx⟩ else stepX
      p :: bresenhamLoop x2 y2 dx dy sx sy n stepXY

/-- The plots of `Bresenham(x1, y1, x2, y2, c)`, from the set-up of R161. Each iteration that steps moves one coordinate, so
`dx - dy` iterations are bound enough (log entry 9). -/
def bresenham (x1 y1 x2 y2 : Int) : List Plot :=
  let dx : Int := (x2 - x1).natAbs
  let dy : Int := -((y2 - y1).natAbs : Int)
  let sx : Int := if x1 < x2 then 1 else -1
  let sy : Int := if y1 < y2 then 1 else -1
  bresenhamLoop x2 y2 dx dy sx sy (dx - dy).toNat ⟨x1, y1, dx + dy⟩

/-- Plot points in order: `NibWrite(Pos(x, y), c)` for each (R162). -/
def plotAll (cfg : Config) (c : Index) (ps : List Plot) (fb : Memory) : Memory :=
  ps.foldl (fun fb p => nibWrite fb (pixelPos cfg p.x p.y) c) fb

/-- LINE (R160). -/
def execLine (x1 y1 x2 y2 c : Int) (s : State) : Host.Outcome State Fault Refusal :=
  finish (checkEndpoints s.cfg x1 y1 x2 y2 c) s
    ((s.setFb (plotAll s.cfg (indexOf c) (bresenham x1 y1 x2 y2) s.fb)).done 0)

end Sys2Proof.Machine
end

