-- ==== Sys2Proof/Machine/PaletteMux.lean ====
section
/-! DEFINITION. palette_lookup_mux: CSET, GETCOLOR and the lookup mux (spec/44_palette.md). -/

namespace Sys2Proof.Machine

/-- `RGB(r, g, b) = {r, g, b}`: red in bits 23..16, green in 15..8, blue in 7..0 (R180). -/
def packRgb (e : Rgb) : Colour := e.r ++ e.g ++ e.b

/-- `Lookup(i) = RGB(PAL[i])` (R186). -/
def lookup (pal : Palette) (i : Index) : Colour := packRgb (palEntry pal i)

/-- CSET (R181). -/
def execCset (c r g b : Int) (s : State) : Host.Outcome State Fault Refusal :=
  finish (firstFailure [checkIndex 0 c, checkChannel 1 r, checkChannel 2 g, checkChannel 3 b]) s
    ((s.setPal (indexOf c) ⟨channelOf r, channelOf g, channelOf b⟩).done 0)

/-- GETCOLOR (R182). -/
def execGetcolor (c : Int) (s : State) : Host.Outcome State Fault Refusal :=
  finish (firstFailure [checkIndex 0 c]) s
    (s.done ((packRgb (palEntry s.pal (indexOf c))).setWidth 32))

end Sys2Proof.Machine
end

