-- ==== Sys2Proof/Machine/PixelBuffer.lean ====
section
/-! DEFINITION. packed_pixel_buffer: PSET, PGET and RDBYTE (spec/40_pixel_buffer.md). -/

namespace Sys2Proof.Machine

/-- PSET (R104). -/
def execPset (x y c : Int) (s : State) : Host.Outcome State Fault Refusal :=
  finish (firstFailure [checkX s.cfg 0 x, checkY s.cfg 1 y, checkIndex 2 c]) s
    ((s.setFb (nibWrite s.fb (pixelPos s.cfg x y) (indexOf c))).done 0)

/-- PGET (R105). -/
def execPget (x y : Int) (s : State) : Host.Outcome State Fault Refusal :=
  finish (firstFailure [checkX s.cfg 0 x, checkY s.cfg 1 y]) s
    (s.done ((nibRead s.fb (pixelPos s.cfg x y)).setWidth 32))

/-- RDBYTE (R110). -/
def execRdbyte (addr : Nat) (s : State) : Host.Outcome State Fault Refusal :=
  finish (checkAddr s.cfg addr) s (s.done ((s.fb.read addr).setWidth 32))

end Sys2Proof.Machine
end

