-- ==== Sys2Proof/Machine/ScanlineFill.lean ====
section
/-! DEFINITION. scanline_fill_unit: the run-fill procedure and SPAN (spec/41_scanline_fill.md). -/

namespace Sys2Proof.Machine

/-- `FillRun(p1, p2, c)` (R120): the lower position starts the run (R121), an odd start and an even end are written as
single nibbles (R122, R123), and the bytes between are written whole (R124). `stop` is one past the last position of the
interior, so that the interior `start .. stop - 1` may be empty. -/
def fillRun (fb : Memory) (p1 p2 : Nat) (c : Index) : Memory :=
  let s := min p1 p2
  let e := max p1 p2
  let fb1 := if s % 2 = 1 then nibWrite fb s c else fb
  let start := if s % 2 = 1 then s + 1 else s
  let fb2 := if e % 2 = 0 then nibWrite fb1 e c else fb1
  let stop := if e % 2 = 0 then e else e + 1
  fb2.fill (start / 2) ((stop - start) / 2) (fillByte c)

/-- SPAN (R127). -/
def execSpan (x1 y1 x2 y2 c : Int) (s : State) : Host.Outcome State Fault Refusal :=
  finish (checkEndpoints s.cfg x1 y1 x2 y2 c) s
    ((s.setFb (fillRun s.fb (pixelPos s.cfg x1 y1) (pixelPos s.cfg x2 y2) (indexOf c))).done 0)

end Sys2Proof.Machine
end

