-- ==== Sys2Proof/Machine/RectangleFill.lean ====
section
/-! DEFINITION. rectangle_fill_engine: RECTFILL (spec/42_rectangle_fill.md). -/

namespace Sys2Proof.Machine

/-- `n` rows from row `y` on, one `FillRun` per row from `(x1, y)` to `(x2, y)` (R141). -/
def fillRows (cfg : Config) (x1 x2 : Int) (c : Index) : Nat → Int → Memory → Memory
  | 0, _, fb => fb
  | n + 1, y, fb =>
    fillRows cfg x1 x2 c n (y + 1) (fillRun fb (pixelPos cfg x1 y) (pixelPos cfg x2 y) c)

/-- The inclusive rectangle of two opposite corners: rows `min(y1, y2)` to `max(y1, y2)` (R140, R142; log entry 10). -/
def fillRect (cfg : Config) (x1 y1 x2 y2 : Int) (c : Index) (fb : Memory) : Memory :=
  fillRows cfg x1 x2 c (max y1 y2 - min y1 y2 + 1).toNat (min y1 y2) fb

/-- RECTFILL (R140). -/
def execRectfill (x1 y1 x2 y2 c : Int) (s : State) : Host.Outcome State Fault Refusal :=
  finish (checkEndpoints s.cfg x1 y1 x2 y2 c) s
    ((s.setFb (fillRect s.cfg x1 y1 x2 y2 (indexOf c) s.fb)).done 0)

end Sys2Proof.Machine
end

