-- ==== Sys2Proof/Machine/ScanOut.lean ====
section
/-! DEFINITION. Scan-out: PRESENT (spec/45_present.md). -/

namespace Sys2Proof.Machine

/-- The frame of a pixel buffer and a palette: `Lookup(NibRead(p))` for `p` from 0 to `NPIX - 1` (R200, R202). -/
def frameOf (cfg : Config) (fb : Memory) (pal : Palette) : Frame :=
  (List.range cfg.npix).map fun p => lookup pal (nibRead fb p)

/-- PRESENT (R200). Its only errors are nonzero reserved fields, which the decoder reports (R223). -/
def execPresent (s : State) : Host.Outcome State Fault Refusal :=
  .next ((s.emitFrame (frameOf s.cfg s.fb s.pal)).done 0)

end Sys2Proof.Machine
end

