-- ==== Sys2Proof/Machine/Dispatch.lean ====
section
/-! DEFINITION. The meaning of each command, one arm per constructor of Instr (spec/30_encoding.md R77). -/

namespace Sys2Proof.Machine

/-- Run one decoded command. -/
def exec (i : Instr) (s : State) : Host.Outcome State Fault Refusal :=
  match i with
  | .pset x y c => Sys2Proof.Machine.execPset x y c s
  | .span x1 y1 x2 y2 c => Sys2Proof.Machine.execSpan x1 y1 x2 y2 c s
  | .rectfill x1 y1 x2 y2 c => Sys2Proof.Machine.execRectfill x1 y1 x2 y2 c s
  | .line x1 y1 x2 y2 c => Sys2Proof.Machine.execLine x1 y1 x2 y2 c s
  | .cset c r g b => Sys2Proof.Machine.execCset c r g b s
  | .pget x y => Sys2Proof.Machine.execPget x y s
  | .getcolor c => Sys2Proof.Machine.execGetcolor c s
  | .rdbyte addr => Sys2Proof.Machine.execRdbyte addr s
  | .present => Sys2Proof.Machine.execPresent s

end Sys2Proof.Machine
end

