-- ==== Sys2Proof/Machine/Step.lean ====
section
/-! DEFINITION. One step of the block: it takes the host's next input (spec/10_state.md R30, R31, R35). -/

namespace Sys2Proof.Machine

/-- Decode and run one command word; an illegal word only raises its error (spec/60_exceptions.md R223). -/
def runWord (w : CmdWord) (s : State) : Host.Outcome State Fault Refusal :=
  match decode w with
  | .command i => exec i s
  | .illegal e => .next (s.illegalCommand e)

/-- One step. With no input the block holds its state and the frame port carries nothing (spec/60_exceptions.md R237; log
entry 6). A reset takes effect between commands (R250). A command before the first reset has no step (R252). -/
def step (s : State) : Host.Outcome State Fault Refusal :=
  match s.host with
  | [] => .next (s.accept [])
  | .reset pal :: rest => .next ((s.accept rest).applyReset pal)
  | .command w :: rest => if s.wasReset then runWord w (s.accept rest) else .fault .commandBeforeReset

/-- The state whose very next step runs the given word: it is the host's next input, presented to a block that has been
reset (log entry 15). -/
def State.withFetchWord (s : State) (nbits w : Nat) : State :=
  { s with host := .command (tableWord nbits w) :: s.host, wasReset := true }

end Sys2Proof.Machine
end

