-- ==== Sys2Proof/Machine/Assembler.lean ====
section
/-! DEFINITION. The assembler syntax of spec/30_encoding.md R81 and the pseudo-instruction `cls` of R82. No step uses it: it
says which word the text of a command stands for. -/

namespace Sys2Proof.Machine

/-- `cls(c)` assembles to `rectfill(0, 0, W-1, H-1, c)` (R82). -/
def clsInstr (cfg : Config) (c : Int) : Instr := .rectfill 0 0 (cfg.w - 1) (cfg.h - 1) c

/-- The value of a digit in a base up to 16. -/
def digitValue (base : Nat) (ch : Char) : Option Nat :=
  let n := ch.toNat
  let v := if 48 ≤ n ∧ n ≤ 57 then n - 48 else if 97 ≤ n ∧ n ≤ 102 then n - 87
    else if 65 ≤ n ∧ n ≤ 70 then n - 55 else 16
  if v < base then some v else none

/-- The number a list of digits writes after the digits worth `acc`. -/
def digitsFrom (base : Nat) : Nat → List Char → Option Nat
  | acc, [] => some acc
  | acc, ch :: cs =>
    match digitValue base ch with
    | some v => digitsFrom base (acc * base + v) cs
    | none => none

/-- A number of at least one digit. -/
def unsignedNumber (base : Nat) (cs : List Char) : Option Nat :=
  if cs = [] then none else digitsFrom base 0 cs

/-- An argument: a decimal integer, optionally negative, or a `0x` hexadecimal (R81). -/
def parseArg : List Char → Option Int
  | '-' :: cs => (unsignedNumber 10 cs).map fun n => -(n : Int)
  | '0' :: 'x' :: cs => (unsignedNumber 16 cs).map fun n => (n : Int)
  | cs => (unsignedNumber 10 cs).map fun n => (n : Int)

/-- Text without the spaces at its two ends. PRESUMED: R81's examples put a space after a comma (log entry 17). -/
def trimSpaces (cs : List Char) : List Char :=
  ((cs.dropWhile (· = ' ')).reverse.dropWhile (· = ' ')).reverse

/-- The parts of a text between its commas. -/
def splitCommas : List Char → List (List Char)
  | [] => [[]]
  | c :: cs =>
    if c = ',' then [] :: splitCommas cs
    else match splitCommas cs with
      | [] => [[c]]
      | part :: parts => (c :: part) :: parts

/-- The arguments between the parentheses; none of them for blank text (R81). -/
def parseArgs (body : List Char) : Option (List Int) :=
  if trimSpaces body = [] then some []
  else (splitCommas body).foldr (fun part rest => (parseArg (trimSpaces part)).bind fun v => rest.map (v :: ·)) (some [])

/-- The command of a mnemonic and its arguments in the order of R75 (R81, R82). -/
def commandOf (cfg : Config) (name : List Char) (args : List Int) : Option Instr :=
  match args with
  | [] => if name = "present".toList then some .present else none
  | [a] =>
    if name = "getcolor".toList then some (.getcolor a)
    else if name = "rdbyte".toList ∧ 0 ≤ a then some (.rdbyte a.toNat)
    else if name = "cls".toList then some (clsInstr cfg a)
    else none
  | [x, y] => if name = "pget".toList then some (.pget x y) else none
  | [x, y, c] => if name = "pset".toList then some (.pset x y c) else none
  | [c, r, g, b] => if name = "cset".toList then some (.cset c r g b) else none
  | [x1, y1, x2, y2, c] =>
    if name = "span".toList then some (.span x1 y1 x2 y2 c)
    else if name = "rectfill".toList then some (.rectfill x1 y1 x2 y2 c)
    else if name = "line".toList then some (.line x1 y1 x2 y2 c)
    else none
  | _ => none

/-- The command a line of assembler text writes: `mnemonic(args)` (R81). -/
def parseCommand (cfg : Config) (text : List Char) : Option Instr :=
  let name := text.takeWhile (· ≠ '(')
  match text.dropWhile (· ≠ '(') with
  | '(' :: rest =>
    match rest.dropWhile (· ≠ ')') with
    | [')'] => (parseArgs (rest.takeWhile (· ≠ ')'))).bind (commandOf cfg name)
    | _ => none
  | _ => none

/-- Assemble one line. An argument that no field can carry is an assembly error, `none` (R81). -/
def assemble (cfg : Config) (text : String) : Option CmdWord :=
  (parseCommand cfg text.toList).bind fun i => if i.wf then some (encode i) else none

end Sys2Proof.Machine
end

