-- ==== Sys2Proof/Safety.lean ====
section
/-! DEFINITION. The terms the claims are stated in: the invariant of a block's state, and the spec's own tables of arguments,
bounds and reserved fields, written from spec/30_encoding.md R75 apart from the decoder and the meanings. -/

namespace Sys2Proof

/-- The fields marked `-` in R75, in increasing order. -/
def reservedFields (op : BitVec 4) : List (Fin 5) :=
  match op.toNat with
  | 1 => [3, 4]
  | 5 => [4]
  | 6 => [2, 3, 4]
  | 7 => [1, 2, 3, 4]
  | 8 => [2, 3, 4]
  | 9 => [0, 1, 2, 3, 4]
  | _ => []

/-- The arguments `v0` to `v4` of a command, unused ones 0 (R75, R80); RDBYTE's address is split into its low and its high
12 bits (R81). -/
def Instr.args : Instr → Fin 5 → Int
  | .pset x y c => ![x, y, c, 0, 0]
  | .span x1 y1 x2 y2 c => ![x1, y1, x2, y2, c]
  | .rectfill x1 y1 x2 y2 c => ![x1, y1, x2, y2, c]
  | .line x1 y1 x2 y2 c => ![x1, y1, x2, y2, c]
  | .cset c r g b => ![c, r, g, b, 0]
  | .pget x y => ![x, y, 0, 0, 0]
  | .getcolor c => ![c, 0, 0, 0, 0]
  | .rdbyte a => ![(a % 4096 : Nat), (a / 4096 : Nat), 0, 0, 0]
  | .present => ![0, 0, 0, 0, 0]

namespace Machine

/-- One checked argument: the field ERRARG names, the value, and the bound it must stay below (R74, R75, R224). -/
structure ArgBound where
  field : BitVec 3
  value : Int
  bound : Nat
  deriving DecidableEq, Repr

/-- `0 <= A < bound` (R224). -/
abbrev ArgBound.InRange (a : ArgBound) : Prop := 0 ≤ a.value ∧ a.value < a.bound

/-- The checked arguments of a command in increasing field order (R74, R75, R78). -/
def argBounds (cfg : Config) : Instr → List ArgBound
  | .pset x y c => [⟨0, x, cfg.w⟩, ⟨1, y, cfg.h⟩, ⟨2, c, 16⟩]
  | .span x1 y1 x2 y2 c => [⟨0, x1, cfg.w⟩, ⟨1, y1, cfg.h⟩, ⟨2, x2, cfg.w⟩, ⟨3, y2, cfg.h⟩, ⟨4, c, 16⟩]
  | .rectfill x1 y1 x2 y2 c => [⟨0, x1, cfg.w⟩, ⟨1, y1, cfg.h⟩, ⟨2, x2, cfg.w⟩, ⟨3, y2, cfg.h⟩, ⟨4, c, 16⟩]
  | .line x1 y1 x2 y2 c => [⟨0, x1, cfg.w⟩, ⟨1, y1, cfg.h⟩, ⟨2, x2, cfg.w⟩, ⟨3, y2, cfg.h⟩, ⟨4, c, 16⟩]
  | .cset c r g b => [⟨0, c, 16⟩, ⟨1, r, 256⟩, ⟨2, g, 256⟩, ⟨3, b, 256⟩]
  | .pget x y => [⟨0, x, cfg.w⟩, ⟨1, y, cfg.h⟩]
  | .getcolor c => [⟨0, c, 16⟩]
  | .rdbyte a => [⟨0, a, cfg.nbytes⟩]
  | .present => []

/-- The pixel `(x, y)` lies in the inclusive rectangle of two opposite corners (R143). -/
abbrev InRect (x1 y1 x2 y2 x y : Int) : Prop :=
  min x1 x2 ≤ x ∧ x ≤ max x1 x2 ∧ min y1 y2 ≤ y ∧ y ≤ max y1 y2

/-- The responses the block can give (R22, R23, R24, R220). -/
structure LegalResponse (status : BitVec 8) (errarg : BitVec 3) (result : BitVec 32) : Prop where
  /-- STATUS is 0, 1 or 2. -/
  code : status = 0 ∨ status = 1 ∨ status = 2
  /-- A successful command writes ERRARG 0. -/
  okArg : status = 0 → errarg = 0
  /-- ARG_OUT_OF_RANGE names a field 0 to 4. -/
  rangeArg : status = 1 → errarg ≤ 4
  /-- ILLEGAL_COMMAND names a field 0 to 4 or the opcode, 7. -/
  illegalArg : status = 2 → errarg ≤ 4 ∨ errarg = 7
  /-- A failing command writes RESULT 0. -/
  failedResult : status ≠ 0 → result = 0

/-- What holds of the state of a block at reset and after every step. -/
structure State.Inv (s : State) : Prop where
  /-- The parameters are legal (R7). -/
  cfgLegal : s.cfg.Legal
  /-- The pixel buffer is in canonical form. -/
  fbWf : s.fb.wf = true
  /-- The pixel buffer lists only bytes that exist, addresses below NBYTES (R20, R59). -/
  fbBytes : ∀ cell ∈ s.fb, cell.1 < s.cfg.nbytes
  /-- When NPIX is odd the padding nibble is 0 (R27). -/
  padding : s.cfg.npix % 2 = 1 → nibRead s.fb s.cfg.npix = 0
  /-- The response registers hold a legal response. -/
  response : LegalResponse s.status s.errarg s.result
  /-- A frame has NPIX colours (R33). -/
  frameLength : ∀ f, s.frameOut = some f → f.length = s.cfg.npix

end Machine

end Sys2Proof
end

