-- ==== Sys2Proof/Certificates/Slice0/Obligations.lean ====
section
/-! DEFINITION. The statements about the block, from the numbered rules of spec/. A premise `s.fb.wf = true` says that the
pixel buffer is in canonical form, which the invariant below keeps. In a conclusion, `{ s with … }` names every field that
changes, so it is the frame as well. -/

open Sys2Proof Sys2Proof.Machine

/-! ## Encoding (spec/30_encoding.md) -/

/-- Decoding the word of a well-formed command gives the command back, for every command and every operand (R72, R80). -/
def Obligations.DecodingAnEncodedCommandGivesItBack : Prop :=
  ∀ i : Instr, i.wf = true → decode (encode i) = .command i

/-- A word that decodes to a command is the word of that command, which is well formed (R72, R79, R80). -/
def Obligations.EncodingADecodedWordGivesItBack : Prop :=
  ∀ (w : CmdWord) (i : Instr), decode w = .command i → i.wf = true ∧ encode i = w

/-- R80: the word of a well-formed command is `op * 2^60` plus each argument modulo 4096 at its field's place; and the
rule's two examples. -/
def Obligations.EncodedWordIsTheSumOfItsFields : Prop :=
  (∀ i : Instr, i.wf = true →
    ((encode i).toNat : Int) = (i.opcode.toNat : Int) * 2 ^ 60 +
      (i.args 0 % 4096) * 2 ^ 48 + (i.args 1 % 4096) * 2 ^ 36 + (i.args 2 % 4096) * 2 ^ 24 +
      (i.args 3 % 4096) * 2 ^ 12 + (i.args 4 % 4096)) ∧
  encode (.pset 3 4 7) = 0x1003004007000000 ∧ encode (.pset (-1) 0 0) = 0x1FFF000000000000

/-- R79: a word decodes to the command of a row exactly when `w & mask = match`, no word matches two rows, and a word is
one of the nine commands exactly when its opcode is 1 to 9 and every reserved field of it is zero, else ILLEGAL_COMMAND. -/
def Obligations.WordIsACommandExactlyWhenItsRowMatches : Prop :=
  ∀ w : CmdWord,
    (∀ op m mask, (op, m, mask) ∈ decodeTable → ((∃ i, decode w = .command i ∧ i.opcode = op) ↔ w &&& mask = m)) ∧
    (∀ r₁ ∈ decodeTable, ∀ r₂ ∈ decodeTable, w &&& r₁.2.2 = r₁.2.1 → w &&& r₂.2.2 = r₂.2.1 → r₁ = r₂) ∧
    ((∃ i, decode w = .command i) ↔
      (1 ≤ (opField w).toNat ∧ (opField w).toNat ≤ 9) ∧ ∀ k ∈ reservedFields (opField w), argField w k = 0) ∧
    ((¬∃ i, decode w = .command i) ↔ ∃ e, decode w = .illegal e)

/-- R72: every argument of a decoded command but RDBYTE's address is its 12-bit field read as two's complement, without
scaling or offset. -/
def Obligations.DecodedArgumentsAreSignExtendedFields : Prop :=
  ∀ (w : CmdWord) (i : Instr) (k : Fin 5), decode w = .command i → (∀ a, i ≠ .rdbyte a) →
    let a : Nat := w.toNat / 2 ^ (48 - 12 * k.val) % 4096
    i.args k = if a < 2048 then (a : Int) else (a : Int) - 4096

/-- R78: a decoded RDBYTE has the unsigned address `a1 * 4096 + a0`, from 0 to 2^24 - 1, and succeeds exactly when the
address is below NBYTES. -/
def Obligations.RdbyteAddressIsTheTwoRawFields : Prop :=
  ∀ (w : CmdWord) (addr : Nat), decode w = .command (.rdbyte addr) →
    addr = w.toNat / 2 ^ 36 % 4096 * 4096 + w.toNat / 2 ^ 48 % 4096 ∧ addr < 2 ^ 24 ∧
    ∀ s : State, ∃ t, exec (.rdbyte addr) s = .next t ∧ (t.status = 0 ↔ addr < s.cfg.nbytes)

/-- Words written out from the encoding decode to the commands they stand for, one or more of each mnemonic, and some words
that are illegal (spec/95_test_vectors.md V0, V7). A sanity statement. -/
def Obligations.WordsWrittenFromTheEncodingDecode : Prop :=
  decode 0x1003004007000000 = .command (.pset 3 4 7) ∧
  decode 0x1FFF000000000000 = .command (.pset (-1) 0 0) ∧
  decode 0x200000007F07F00F = .command (.span 0 0 127 127 15) ∧
  decode 0x3001002003004005 = .command (.rectfill 1 2 3 4 5) ∧
  decode 0x4FFF0C8005005063 = .command (.line (-1) 200 5 5 99) ∧
  decode 0x500F0FF080000000 = .command (.cset 15 255 128 0) ∧
  decode 0x607F07F000000000 = .command (.pget 127 127) ∧
  decode 0x700F000000000000 = .command (.getcolor 15) ∧
  decode 0x8FFF001000000000 = .command (.rdbyte 8191) ∧
  decode 0x9000000000000000 = .command .present ∧
  decode 0x0000000000000000 = .illegal .opcode ∧
  decode 0x1000000000002001 = .illegal (.reserved 3) ∧
  decode 0x7000FFF000000000 = .illegal (.reserved 1)

/-- R77: the opcode map, and that a word with opcode 0 or 10 to 15 ends with STATUS 2, ERRARG 7, RESULT 0, whatever its other
fields hold, and changes nothing else. -/
def Obligations.IllegalOpcodesReportSeven : Prop :=
  (∀ w i, decode w = .command i → opField w = match i with
    | .pset .. => 1 | .span .. => 2 | .rectfill .. => 3 | .line .. => 4 | .cset .. => 5
    | .pget .. => 6 | .getcolor .. => 7 | .rdbyte .. => 8 | .present => 9) ∧
  ∀ (s : State) (w : CmdWord) (rest : List HostInput),
    s.wasReset = true → s.host = .command w :: rest → (opField w = 0 ∨ 10 ≤ (opField w).toNat) →
    step s = .next { s with host := rest, frameOut := none, status := 2, errarg := 7, result := 0 }

/-- R76: a command word with a nonzero reserved field ends with STATUS 2 and ERRARG the lowest-numbered such field, and
writes neither FB nor PAL. -/
def Obligations.NonzeroReservedFieldReportsTheLowest : Prop :=
  ∀ (s : State) (w : CmdWord) (rest : List HostInput) (k : Fin 5),
    s.wasReset = true → s.host = .command w :: rest →
    (k ∈ reservedFields (opField w) ∧ argField w k ≠ 0) →
    (∀ j ∈ reservedFields (opField w), j < k → argField w j = 0) →
    step s = .next { s with
      host := rest, frameOut := none, status := 2, errarg := BitVec.ofNat 3 k.val, result := 0 }

/-! ## Argument checks and responses (spec/60_exceptions.md) -/

/-- When a checked argument is out of its range and every lower-numbered one is in range, the
command ends with STATUS 1, ERRARG that field, RESULT 0, and changes nothing else. -/
def Obligations.FirstArgumentOutOfRangeIsReported : Prop :=
  ∀ (i : Instr) (s : State) (before after : List ArgBound) (a : ArgBound),
    argBounds s.cfg i = before ++ a :: after → (∀ b ∈ before, b.InRange) → ¬a.InRange →
    exec i s = .next { s with status := 1, errarg := a.field, result := 0 }

/-- A command succeeds exactly when every checked argument is in its range, and every command completes (R224, R226). -/
def Obligations.CommandSucceedsExactlyWhenItsArgumentsAreInRange : Prop :=
  ∀ (i : Instr) (s : State), ∃ t, exec i s = .next t ∧
    (t.status = 0 ↔ ∀ a ∈ argBounds s.cfg i, a.InRange) ∧ (t.status = 0 → t.errarg = 0)

/-- A command that fails writes STATUS and ERRARG, sets RESULT to 0, and changes nothing else: FB and PAL stay
bit-for-bit as they were and no frame is emitted (R222). -/
def Obligations.FailedCommandChangesOnlyTheResponse : Prop :=
  ∀ (s t : State) (w : CmdWord) (rest : List HostInput),
    s.host = .command w :: rest → step s = .next t → t.status ≠ 0 →
    t = { s with host := rest, frameOut := none, status := t.status, errarg := t.errarg, result := 0 }

/-- Every command writes a legal response, whatever the state before it (R22, R23, R24, R220). -/
def Obligations.EveryCommandWritesALegalResponse : Prop :=
  ∀ (s t : State) (w : CmdWord) (rest : List HostInput),
    s.host = .command w :: rest → step s = .next t → LegalResponse t.status t.errarg t.result

/-- No error is sticky: a command's outcome does not depend on the response registers left by the command before it, all
three of which it overwrites (R227, R229). -/
def Obligations.OutcomeIgnoresTheEarlierResponse : Prop :=
  ∀ (s : State) (w : CmdWord) (rest : List HostInput) (st : BitVec 8) (ea : BitVec 3) (r : BitVec 32),
    s.host = .command w :: rest → step { s with status := st, errarg := ea, result := r } = step s

/-! ## Steps, reset and order (spec/10_state.md, spec/20_memory.md, spec/70_reset_and_hazards.md) -/

/-- A step of a block whose next input is a word that decodes to a command runs exactly that command, in the state where the
word is consumed and the frame port is empty. -/
def Obligations.StepRunsTheDecodedCommand : Prop :=
  ∀ (s : State) (w : CmdWord) (rest : List HostInput) (i : Instr),
    s.wasReset = true → s.host = .command w :: rest → decode w = .command i →
    step s = exec i { s with host := rest, frameOut := none }

/-- With no input the block holds its state (R237). That the frame port is then empty is the model's choice, log entry 6. -/
def Obligations.StepWithoutInputHoldsTheState : Prop :=
  ∀ s : State, s.host = [] → step s = .next { s with frameOut := none }

/-- The reset input sets every element of state to its reset value at once, in a step of its own, so between commands, whatever
the state before; it keeps nothing of that state and emits no frame (R250, R251), and the instance's parameters stay (R25).
Two clauses are the model's choice: that the host's later inputs stay as presented (log entry 14, DESIGN CHOICE), and the
field that records that a reset has happened (log entry 5, DESIGN CHOICE). -/
def Obligations.ResetInputSetsEveryElement : Prop :=
  ∀ (s : State) (pal : Palette) (rest : List HostInput), s.host = .reset pal :: rest →
    ∃ t, step s = .next t ∧ (∀ a, t.fb.read a = 0x00) ∧ t.pal = pal ∧ t.status = 0 ∧ t.errarg = 0 ∧ t.result = 0 ∧
      t.frameOut = none ∧ t.wasReset = true ∧ t.cfg = s.cfg ∧ t.host = rest ∧
      ∀ s' : State, s'.cfg = s.cfg → s'.host = s.host → step s' = .next t

/-- R40, R41, R42: after reset with any palette every byte of FB is 0x00, so every pixel has index 0, PAL is that palette, the
response registers are 0 and no frame has been emitted. -/
def Obligations.StateAfterReset : Prop :=
  ∀ (cfg : Config) (pal : Palette) (host : List HostInput),
    let s := State.afterReset cfg pal host
    (∀ a, s.fb.read a = 0x00) ∧ (∀ p, nibRead s.fb p = 0) ∧ (∀ i : Fin 16, s.pal[i] = pal[i]) ∧
      s.status = 0 ∧ s.errarg = 0 ∧ s.result = 0 ∧ s.frameOut = none

/-- A command presented before the first reset has no step, whatever the word (R252). That the stop is a fault of that name,
and the field that says whether a reset has happened, are the model's choice, log entry 5. -/
def Obligations.CommandBeforeTheFirstResetHasNoStep : Prop :=
  ∀ (s : State) (w : CmdWord) (rest : List HostInput), s.wasReset = false → s.host = .command w :: rest →
    step s = .fault .commandBeforeReset ∧ ¬∃ t, step s = .next t

/-- A block that has been reset completes every step, for every input, and stays reset (R35, R227). -/
def Obligations.EveryStepOfAResetBlockCompletes : Prop :=
  ∀ s : State, s.wasReset = true → ∃ t, step s = .next t ∧ t.wasReset = true

/-- No step changes the parameters W and H (R25). -/
def Obligations.NoStepChangesTheParameters : Prop :=
  ∀ s t : State, step s = .next t → t.cfg = s.cfg

/-- Inputs take effect in the order the host presents them: after the first inputs the block is in a state that no later
input has influenced, and only the later inputs are left (R61). -/
def Obligations.LaterInputsDoNotInfluenceEarlierOnes : Prop :=
  ∀ (s : State) (first rest rest' : List HostInput), s.wasReset = true →
    ∃ t : State,
      core.run first.length { s with host := first ++ rest } = .next { t with host := rest } ∧
      core.run first.length { s with host := first ++ rest' } = .next { t with host := rest' }

/-! ## Invariants and rules about every command -/

/-- The invariant holds after reset, for every legal grid and every palette, and of the model's reset state. -/
def Obligations.InvariantHoldsAfterReset : Prop :=
  (∀ (cfg : Config) (pal : Palette) (host : List HostInput), cfg.Legal → (State.afterReset cfg pal host).Inv) ∧
  State.reset.Inv

/-- Every step keeps the invariant: legal parameters, a canonical pixel buffer that lists only existing bytes, a zero padding
nibble, a legal response, frames of NPIX colours. -/
def Obligations.EveryStepKeepsTheInvariant : Prop :=
  ∀ s t : State, s.Inv → step s = .next t → t.Inv

/-- No command changes a nibble at or beyond position NPIX: the bounds checks keep every written position inside the grid
(R60). -/
def Obligations.NoCommandWritesOutsideTheGrid : Prop :=
  ∀ (i : Instr) (s t : State), s.fb.wf = true → exec i s = .next t →
    ∀ q, s.cfg.npix ≤ q → nibRead t.fb q = nibRead s.fb q

/-- R27: when NPIX is odd, no command writes the padding nibble, PRESENT does not read it, RDBYTE returns it in bits 7..4 of
the last byte, it is 0 after reset and stays 0. -/
def Obligations.PaddingNibbleIsNeverWrittenOrScanned : Prop :=
  ∀ cfg : Config, cfg.npix % 2 = 1 →
    (∀ (i : Instr) (s t : State), s.cfg = cfg → s.fb.wf = true → exec i s = .next t →
      nibRead t.fb cfg.npix = nibRead s.fb cfg.npix) ∧
    (∀ (s : State) (fb' : Memory), s.cfg = cfg → (∀ p, p < cfg.npix → nibRead fb' p = nibRead s.fb p) →
      ∃ t t', exec .present s = .next t ∧ exec .present { s with fb := fb' } = .next t' ∧ t'.frameOut = t.frameOut) ∧
    (∀ s : State, s.cfg = cfg → ∃ t, exec (.rdbyte (cfg.nbytes - 1)) s = .next t ∧ t.status = 0 ∧
      t.result.extractLsb' 4 4 = nibRead s.fb cfg.npix) ∧
    (∀ pal host, nibRead (State.afterReset cfg pal host).fb cfg.npix = 0) ∧
    (∀ s t : State, s.cfg = cfg → s.fb.wf = true → nibRead s.fb cfg.npix = 0 → step s = .next t →
      nibRead t.fb cfg.npix = 0)

/-- Only PSET, SPAN, RECTFILL and LINE write FB, only CSET writes PAL, and only PRESENT hands anything to the frame port; PGET,
GETCOLOR and RDBYTE change nothing but the response registers (R20, R21, R33, R58). -/
def Obligations.OnlyTheListedCommandsWriteEachStore : Prop :=
  ∀ (i : Instr) (s t : State), exec i s = .next t →
    (t.fb = s.fb ∨ match i with | .pset .. | .span .. | .rectfill .. | .line .. => True | _ => False) ∧
    (t.pal = s.pal ∨ match i with | .cset .. => True | _ => False) ∧
    (t.frameOut = s.frameOut ∨ i = .present) ∧
    t = { s with
      fb := t.fb, pal := t.pal, frameOut := t.frameOut, status := t.status, errarg := t.errarg, result := t.result }

/-- Every command is idempotent on FB and PAL: a second run leaves them as the first did (R58). -/
def Obligations.RepeatingACommandChangesNothingMore : Prop :=
  ∀ (i : Instr) (s t : State), s.fb.wf = true → exec i s = .next t →
    ∃ u, exec i t = .next u ∧ u.fb = t.fb ∧ u.pal = t.pal

/-- The two storage spaces do not influence each other: what a command does to FB, STATUS and ERRARG does not depend on PAL,
nor RESULT but for GETCOLOR; and what it does to PAL, STATUS and ERRARG does not depend on FB, nor RESULT but for PGET and
RDBYTE (R50). -/
def Obligations.PixelsAndPaletteDoNotInfluenceEachOther : Prop :=
  ∀ (i : Instr) (s t : State), exec i s = .next t →
    (∀ pal' : Palette, ∃ t', exec i { s with pal := pal' } = .next t' ∧
      t'.fb = t.fb ∧ t'.status = t.status ∧ t'.errarg = t.errarg ∧
      ((∀ c, i ≠ .getcolor c) → t'.result = t.result)) ∧
    (∀ fb' : Memory, ∃ t', exec i { s with fb := fb' } = .next t' ∧
      t'.pal = t.pal ∧ t'.status = t.status ∧ t'.errarg = t.errarg ∧
      ((∀ x y, i ≠ .pget x y) → (∀ a, i ≠ .rdbyte a) → t'.result = t.result))

/-! ## packed_pixel_buffer (spec/20_memory.md, spec/40_pixel_buffer.md) -/

/-- R52: `Pos(x, y) = x + y * W` of an in-range pixel is at most NPIX - 1, and `(p mod W, p div W)` is its inverse, a
bijection between the grid and `[0, NPIX)`. -/
def Obligations.PixelPositionsAreABijection : Prop :=
  ∀ cfg : Config,
    (∀ x y : Nat, x < cfg.w → y < cfg.h →
      pixelPos cfg x y = x + y * cfg.w ∧ pixelPos cfg x y ≤ cfg.npix - 1 ∧ pixelPos cfg x y < cfg.npix ∧
      pixelPos cfg x y % cfg.w = x ∧ pixelPos cfg x y / cfg.w = y) ∧
    (∀ p : Nat, p < cfg.npix →
      p % cfg.w < cfg.w ∧ p / cfg.w < cfg.h ∧ pixelPos cfg (p % cfg.w : Nat) (p / cfg.w : Nat) = p)

/-- PSET with in-range arguments completes: it sets the pixel's nibble, keeps every other nibble, and so every byte but the
one that holds the pixel; PAL, the frame port and the rest stay, and the response is 0, 0, 0 (R104, R101). -/
def Obligations.PsetWritesExactlyOnePixel : Prop :=
  ∀ (s : State) (x y c : Int), s.fb.wf = true →
    (0 ≤ x ∧ x < s.cfg.w) → (0 ≤ y ∧ y < s.cfg.h) → (0 ≤ c ∧ c < 16) →
    ∃ fb : Memory, exec (.pset x y c) s = .next { s with fb := fb, status := 0, errarg := 0, result := 0 } ∧
      ((nibRead fb (pixelPos s.cfg x y)).toNat : Int) = c ∧
      (∀ q, q ≠ pixelPos s.cfg x y → nibRead fb q = nibRead s.fb q) ∧
      (∀ a, a ≠ pixelPos s.cfg x y / 2 → fb.read a = s.fb.read a)

/-- PGET with in-range arguments completes with RESULT the pixel's index, zero-extended, and changes nothing else (R105). -/
def Obligations.PgetReturnsThePixel : Prop :=
  ∀ (s : State) (x y : Int), (0 ≤ x ∧ x < s.cfg.w) → (0 ≤ y ∧ y < s.cfg.h) →
    exec (.pget x y) s = .next { s with
      status := 0, errarg := 0, result := BitVec.ofNat 32 (nibRead s.fb (pixelPos s.cfg x y)).toNat }

/-- Setting a pixel and reading it back gives the index set, and reading any other pixel gives what it gave before (the
source's property in R103; spec/95_test_vectors.md W1). -/
def Obligations.PsetThenPgetReadsBack : Prop :=
  ∀ (s : State) (x y c u v : Int), s.fb.wf = true →
    (0 ≤ x ∧ x < s.cfg.w) → (0 ≤ y ∧ y < s.cfg.h) → (0 ≤ c ∧ c < 16) →
    (0 ≤ u ∧ u < s.cfg.w) → (0 ≤ v ∧ v < s.cfg.h) →
    ∃ t r r₀, exec (.pset x y c) s = .next t ∧ exec (.pget u v) t = .next r ∧ exec (.pget u v) s = .next r₀ ∧
      (u = x ∧ v = y → (r.result.toNat : Int) = c) ∧ (¬(u = x ∧ v = y) → r.result = r₀.result)

/-- RDBYTE below NBYTES completes with RESULT the byte as stored: the pixel at position `2 * addr` in bits 3..0 and the one at
`2 * addr + 1` in bits 7..4, bits 31..8 zero. It changes nothing else (R110, R55). -/
def Obligations.RdbyteReturnsBothPixelsOfTheByte : Prop :=
  ∀ (s : State) (addr : Nat), addr < s.cfg.nbytes →
    ∃ v : BitVec 32, exec (.rdbyte addr) s = .next { s with status := 0, errarg := 0, result := v } ∧
      v.toNat = (s.fb.read addr).toNat ∧
      v.toNat = (nibRead s.fb (2 * addr + 1)).toNat * 16 + (nibRead s.fb (2 * addr)).toNat

/-! ## scanline_fill_unit (spec/41_scanline_fill.md) -/

/-- R126: `FillRun` sets every nibble of the inclusive run to the colour, keeps every other nibble, and equals `NibWrite` of
each position of the run in any order. -/
def Obligations.RunFillEqualsPixelWritesInAnyOrder : Prop :=
  ∀ (fb : Memory) (p1 p2 : Nat) (c : Index), fb.wf = true →
    (∀ q, min p1 p2 ≤ q → q ≤ max p1 p2 → nibRead (fillRun fb p1 p2 c) q = c) ∧
    (∀ q, q < min p1 p2 ∨ max p1 p2 < q → nibRead (fillRun fb p1 p2 c) q = nibRead fb q) ∧
    ∀ order : List Nat, order.Perm (List.range' (min p1 p2) (max p1 p2 + 1 - min p1 p2)) →
      fillRun fb p1 p2 c = order.foldl (fun m q => nibWrite m q c) fb

/-- A run of one pixel, and a run of two pixels from an odd start, are written by the single-nibble paths alone (R125); and the
order of the two endpoints does not matter (R121). -/
def Obligations.ShortRunsAreSingleNibbleWrites : Prop :=
  ∀ (fb : Memory) (p q : Nat) (c : Index),
    fillRun fb p p c = nibWrite fb p c ∧
    (p % 2 = 1 → fillRun fb p (p + 1) c = nibWrite (nibWrite fb p c) (p + 1) c) ∧
    fillRun fb p q c = fillRun fb q p c

/-- SPAN with in-range arguments completes: it sets every nibble of the run between its endpoints' positions, keeps every
other nibble and every byte outside the run's bytes, and the response is 0, 0, 0 (R127, R126). -/
def Obligations.SpanFillsExactlyTheRun : Prop :=
  ∀ (s : State) (x1 y1 x2 y2 c : Int), s.fb.wf = true →
    (0 ≤ x1 ∧ x1 < s.cfg.w) → (0 ≤ y1 ∧ y1 < s.cfg.h) → (0 ≤ x2 ∧ x2 < s.cfg.w) → (0 ≤ y2 ∧ y2 < s.cfg.h) →
    (0 ≤ c ∧ c < 16) →
    let lo := min (pixelPos s.cfg x1 y1) (pixelPos s.cfg x2 y2)
    let hi := max (pixelPos s.cfg x1 y1) (pixelPos s.cfg x2 y2)
    ∃ fb : Memory, exec (.span x1 y1 x2 y2 c) s = .next { s with fb := fb, status := 0, errarg := 0, result := 0 } ∧
      (∀ q, lo ≤ q → q ≤ hi → ((nibRead fb q).toNat : Int) = c) ∧
      (∀ q, q < lo ∨ hi < q → nibRead fb q = nibRead s.fb q) ∧
      (∀ a, a < lo / 2 ∨ hi / 2 < a → fb.read a = s.fb.read a)

/-! ## rectangle_fill_engine (spec/42_rectangle_fill.md) -/

/-- RECTFILL with in-range arguments completes: it sets exactly the pixels of the inclusive rectangle, keeps every other
nibble and every byte that holds no pixel of it, and the response is 0, 0, 0 (R140, R143). For `y1 > y2` that rests on a
choice, to normalise the rows: it is the spec's own decision (R142, D13), log entry 10, DEDUCED and unsafe. -/
def Obligations.RectfillFillsExactlyTheRectangle : Prop :=
  ∀ (s : State) (x1 y1 x2 y2 c : Int), s.fb.wf = true →
    (0 ≤ x1 ∧ x1 < s.cfg.w) → (0 ≤ y1 ∧ y1 < s.cfg.h) → (0 ≤ x2 ∧ x2 < s.cfg.w) → (0 ≤ y2 ∧ y2 < s.cfg.h) →
    (0 ≤ c ∧ c < 16) →
    ∃ fb : Memory,
      exec (.rectfill x1 y1 x2 y2 c) s = .next { s with fb := fb, status := 0, errarg := 0, result := 0 } ∧
      (∀ x y, InRect x1 y1 x2 y2 x y → ((nibRead fb (pixelPos s.cfg x y)).toNat : Int) = c) ∧
      (∀ q, (∀ x y, InRect x1 y1 x2 y2 x y → q ≠ pixelPos s.cfg x y) → nibRead fb q = nibRead s.fb q) ∧
      (∀ a, (∀ x y, InRect x1 y1 x2 y2 x y → a ≠ pixelPos s.cfg x y / 2) → fb.read a = s.fb.read a)

/-- After a successful RECTFILL every pixel of the inclusive rectangle reads as the colour, every other nibble is unchanged,
PAL is unchanged, and a PRESENT that follows shows the palette colour on exactly those pixels and the pixels' earlier
colours elsewhere (R143). For `y1 > y2` that rests on a choice, to normalise the rows: it is the spec's own decision (R142,
D13), log entry 10, DEDUCED and unsafe. -/
def Obligations.PresentAfterRectfillShowsTheRectangle : Prop :=
  ∀ (s : State) (x1 y1 x2 y2 c : Int), s.fb.wf = true →
    (0 ≤ x1 ∧ x1 < s.cfg.w) → (0 ≤ y1 ∧ y1 < s.cfg.h) → (0 ≤ x2 ∧ x2 < s.cfg.w) → (0 ≤ y2 ∧ y2 < s.cfg.h) →
    (0 ≤ c ∧ c < 16) →
    ∃ t u f, exec (.rectfill x1 y1 x2 y2 c) s = .next t ∧ t.status = 0 ∧ t.pal = s.pal ∧
      (∀ x y, InRect x1 y1 x2 y2 x y → ((nibRead t.fb (pixelPos s.cfg x y)).toNat : Int) = c) ∧
      (∀ q, (∀ x y, InRect x1 y1 x2 y2 x y → q ≠ pixelPos s.cfg x y) → nibRead t.fb q = nibRead s.fb q) ∧
      exec .present t = .next u ∧ u.frameOut = some f ∧ f.length = s.cfg.npix ∧
      ∀ x y : Nat, x < s.cfg.w → y < s.cfg.h →
        f[pixelPos s.cfg x y]? = some
          (if InRect x1 y1 x2 y2 x y then lookup s.pal (BitVec.ofNat 4 c.toNat)
           else lookup s.pal (nibRead s.fb (pixelPos s.cfg x y)))

/-- Commands that coincide: a one-pixel SPAN is a PSET, a one-row RECTFILL is a SPAN, and a rectangle's corners may be given
in either order on either axis (the corner cases of R127 and R140). That `y1` and `y2` may be swapped is a choice, to
normalise the rows: it is the spec's own decision (R142, D13), log entry 10, DEDUCED and unsafe. -/
def Obligations.SpecialRunsAndRectanglesCoincide : Prop :=
  (∀ (s : State) (x y c : Int), (0 ≤ x ∧ x < s.cfg.w) → (0 ≤ y ∧ y < s.cfg.h) → (0 ≤ c ∧ c < 16) →
    exec (.span x y x y c) s = exec (.pset x y c) s ∧ exec (.rectfill x y x y c) s = exec (.pset x y c) s) ∧
  (∀ (s : State) (x1 x2 y c : Int), exec (.rectfill x1 y x2 y c) s = exec (.span x1 y x2 y c) s) ∧
  (∀ (s : State) (x1 y1 x2 y2 c : Int),
    (0 ≤ x1 ∧ x1 < s.cfg.w) → (0 ≤ y1 ∧ y1 < s.cfg.h) → (0 ≤ x2 ∧ x2 < s.cfg.w) → (0 ≤ y2 ∧ y2 < s.cfg.h) →
    exec (.rectfill x1 y1 x2 y2 c) s = exec (.rectfill x2 y1 x1 y2 c) s ∧
    exec (.rectfill x1 y1 x2 y2 c) s = exec (.rectfill x1 y2 x2 y1 c) s)

/-- `cls(c)` is `rectfill(0, 0, W-1, H-1, c)` and clears the whole grid to index `c`, and it writes no other
nibble (R82). -/
def Obligations.ClsClearsTheWholeGrid : Prop :=
  ∀ (s : State) (c : Int), s.fb.wf = true → s.cfg.Legal → (0 ≤ c ∧ c < 16) →
    clsInstr s.cfg c = .rectfill 0 0 (s.cfg.w - 1) (s.cfg.h - 1) c ∧
    ∃ t, exec (clsInstr s.cfg c) s = .next t ∧ t.status = 0 ∧
      (∀ p, p < s.cfg.npix → ((nibRead t.fb p).toNat : Int) = c) ∧
      (∀ p, s.cfg.npix ≤ p → nibRead t.fb p = nibRead s.fb p)

/-! ## line_rasterizer (spec/43_line_rasterizer.md) -/

/-- Between in-range endpoints the loop plots `max(dx, -dy) + 1` distinct points, from `(x1, y1)` to `(x2, y2)`, consecutive
ones differing by at most 1 in each coordinate and never equal, every one inside the bounding box, hence at a position below
NPIX, with `2 * dy <= err <= 2 * dx` at every plot; and the final FB is `NibWrite` of each plotted point and no other change
(R164). R164 rests on the single `e2` of R162, a choice the spec takes from general knowledge (D14), log entry 8, PRESUMED
and unsafe. -/
def Obligations.LineLoopEndsAtItsEndPoint : Prop :=
  ∀ (cfg : Config) (x1 y1 x2 y2 : Int),
    (0 ≤ x1 ∧ x1 < cfg.w) → (0 ≤ y1 ∧ y1 < cfg.h) → (0 ≤ x2 ∧ x2 < cfg.w) → (0 ≤ y2 ∧ y2 < cfg.h) →
    let ps := bresenham x1 y1 x2 y2
    let dx : Int := |x2 - x1|
    let dy : Int := -|y2 - y1|
    (ps.length : Int) = max dx (-dy) + 1 ∧
    (ps.map fun p => (p.x, p.y)).Nodup ∧
    (ps.head?.map fun p => (p.x, p.y)) = some (x1, y1) ∧
    (ps.getLast?.map fun p => (p.x, p.y)) = some (x2, y2) ∧
    (∀ (k : Nat) (p q : Plot), ps[k]? = some p → ps[k + 1]? = some q →
      |q.x - p.x| ≤ 1 ∧ |q.y - p.y| ≤ 1 ∧ (q.x, q.y) ≠ (p.x, p.y)) ∧
    (∀ p ∈ ps, InRect x1 y1 x2 y2 p.x p.y ∧ pixelPos cfg p.x p.y < cfg.npix ∧
      2 * dy ≤ p.err ∧ p.err ≤ 2 * dx) ∧
    ∀ (s : State) (c : Int), s.cfg = cfg → (0 ≤ c ∧ c < 16) →
      exec (.line x1 y1 x2 y2 c) s = .next { s with
        fb := ps.foldl (fun fb p => nibWrite fb (pixelPos cfg p.x p.y) (BitVec.ofNat 4 c.toNat)) s.fb
        status := 0, errarg := 0, result := 0 }

/-- Each plotted point follows from the one before by one iteration of R162, with `e2 = 2 * err` computed once, from the
set-up of R161; only the end point has no successor (R163). The order of the two tests is the spec's own choice (R162, D14;
log entry 8). -/
def Obligations.LinePointsFollowTheBresenhamStep : Prop :=
  ∀ (x1 y1 x2 y2 : Int),
    let ps := bresenham x1 y1 x2 y2
    let dx : Int := |x2 - x1|
    let dy : Int := -|y2 - y1|
    let sx : Int := if x1 < x2 then 1 else -1
    let sy : Int := if y1 < y2 then 1 else -1
    ps.head? = some ⟨x1, y1, dx + dy⟩ ∧
    ∀ (k : Nat) (p : Plot), ps[k]? = some p →
      if p.x = x2 ∧ p.y = y2 then ps.length = k + 1
      else ps[k + 1]? = some
        { x := if 2 * p.err ≥ dy then p.x + sx else p.x
          y := if 2 * p.err ≤ dx then p.y + sy else p.y
          err := p.err + (if 2 * p.err ≥ dy then dy else 0) + (if 2 * p.err ≤ dx then dx else 0) }

/-- LINE with in-range arguments completes: it sets exactly the plotted points, keeps every other nibble and every byte that
holds no plotted point, and the response is 0, 0, 0 (R160, R164). -/
def Obligations.LineSetsExactlyItsPoints : Prop :=
  ∀ (s : State) (x1 y1 x2 y2 c : Int), s.fb.wf = true →
    (0 ≤ x1 ∧ x1 < s.cfg.w) → (0 ≤ y1 ∧ y1 < s.cfg.h) → (0 ≤ x2 ∧ x2 < s.cfg.w) → (0 ≤ y2 ∧ y2 < s.cfg.h) →
    (0 ≤ c ∧ c < 16) →
    ∃ fb : Memory, exec (.line x1 y1 x2 y2 c) s = .next { s with fb := fb, status := 0, errarg := 0, result := 0 } ∧
      (∀ p ∈ bresenham x1 y1 x2 y2, ((nibRead fb (pixelPos s.cfg p.x p.y)).toNat : Int) = c) ∧
      (∀ q, (∀ p ∈ bresenham x1 y1 x2 y2, q ≠ pixelPos s.cfg p.x p.y) → nibRead fb q = nibRead s.fb q) ∧
      (∀ a, (∀ p ∈ bresenham x1 y1 x2 y2, a ≠ pixelPos s.cfg p.x p.y / 2) → fb.read a = s.fb.read a)

/-- Horizontal, vertical and 45-degree lines plot exactly the pixels between their endpoints, in order from the start point
(corner cases of R160; R166 has worked cases of it). -/
def Obligations.StraightLinesPlotEveryPixelBetween : Prop :=
  ∀ (x y : Int) (n : Nat) (ux uy : Int), (ux, uy) ∈ [((1 : Int), (0 : Int)), (-1, 0), (0, 1), (0, -1), (1, 1), (1, -1), (-1, 1), (-1, -1)] →
    (bresenham x y (x + n * ux) (y + n * uy)).map (fun p => (p.x, p.y)) =
      (List.range (n + 1)).map fun k : Nat => (x + (k : Int) * ux, y + (k : Int) * uy)

/-- R165: the plotted points depend on which endpoint is the start. A sanity statement. -/
def Obligations.LineIsNotSymmetricInItsEndpoints : Prop :=
  (bresenham 0 0 1 2).map (fun p => (p.x, p.y)) = [(0, 0), (1, 1), (1, 2)] ∧
  (bresenham 1 2 0 0).map (fun p => (p.x, p.y)) = [(1, 2), (0, 1), (0, 0)]

/-- On a legal grid `e2 = 2 * err` stays within `[-4 * (H - 1), 4 * (W - 1)]` and within 8184 in magnitude, and `x`, `y` stay
within the grid, so 16-bit registers never overflow (R167). -/
def Obligations.LineRegistersNeverOverflow : Prop :=
  ∀ (cfg : Config) (x1 y1 x2 y2 : Int), cfg.Legal →
    (0 ≤ x1 ∧ x1 < cfg.w) → (0 ≤ y1 ∧ y1 < cfg.h) → (0 ≤ x2 ∧ x2 < cfg.w) → (0 ≤ y2 ∧ y2 < cfg.h) →
    ∀ p ∈ bresenham x1 y1 x2 y2,
      (0 ≤ p.x ∧ p.x < cfg.w) ∧ (0 ≤ p.y ∧ p.y < cfg.h) ∧
      -4 * ((cfg.h : Int) - 1) ≤ 2 * p.err ∧ 2 * p.err ≤ 4 * ((cfg.w : Int) - 1) ∧ |2 * p.err| ≤ 8184

/-! ## palette_lookup_mux (spec/44_palette.md) -/

/-- CSET with in-range arguments completes: entry `c` becomes `(r, g, b)`, every other entry, FB and the rest stay, and the
response is 0, 0, 0 (R181). -/
def Obligations.CsetReplacesOneEntry : Prop :=
  ∀ (s : State) (c r g b : Int), (0 ≤ c ∧ c < 16) → (0 ≤ r ∧ r < 256) → (0 ≤ g ∧ g < 256) → (0 ≤ b ∧ b < 256) →
    ∃ (pal : Palette) (e : Rgb),
      exec (.cset c r g b) s = .next { s with pal := pal, status := 0, errarg := 0, result := 0 } ∧
      pal[c.toNat]? = some e ∧ (e.r.toNat : Int) = r ∧ (e.g.toNat : Int) = g ∧ (e.b.toNat : Int) = b ∧
      ∀ k : Nat, k ≠ c.toNat → pal[k]? = s.pal[k]?

/-- GETCOLOR of an index in range completes with RESULT the entry packed as `{0x00, r, g, b}`, red in bits 23..16, green in
15..8, blue in 7..0, and changes nothing else (R182, R180). -/
def Obligations.GetcolorReturnsThePackedEntry : Prop :=
  ∀ (s : State) (c : Int), (0 ≤ c ∧ c < 16) →
    ∃ (e : Rgb) (v : BitVec 32), s.pal[c.toNat]? = some e ∧
      exec (.getcolor c) s = .next { s with status := 0, errarg := 0, result := v } ∧
      v.toNat = e.r.toNat * 2 ^ 16 + e.g.toNat * 2 ^ 8 + e.b.toNat ∧
      v.extractLsb' 24 8 = 0 ∧ v.extractLsb' 16 8 = e.r ∧ v.extractLsb' 8 8 = e.g ∧ v.extractLsb' 0 8 = e.b

/-- R183: a successful `cset(c, r, g, b)` followed by `getcolor(c)` returns `RGB(r, g, b)`, and a failing `cset` leaves every
entry as it was. -/
def Obligations.CsetThenGetcolorReadsBack : Prop :=
  (∀ (s : State) (c r g b : Int), (0 ≤ c ∧ c < 16) → (0 ≤ r ∧ r < 256) → (0 ≤ g ∧ g < 256) → (0 ≤ b ∧ b < 256) →
    ∃ t u, exec (.cset c r g b) s = .next t ∧ t.status = 0 ∧ exec (.getcolor c) t = .next u ∧
      (u.result.toNat : Int) = r * 2 ^ 16 + g * 2 ^ 8 + b) ∧
  ∀ (s t : State) (c r g b : Int), exec (.cset c r g b) s = .next t → t.status ≠ 0 → t.pal = s.pal

/-! ## Scan-out (spec/45_present.md) -/

/-- R201, R202: PRESENT completes and emits one frame that scans all NPIX pixels: element `p` is `Lookup(NibRead(p))` of the
state before it. Nothing else changes but the response, 0, 0, 0. -/
def Obligations.PresentEmitsTheWholeSnapshot : Prop :=
  ∀ s : State, ∃ f : Frame,
    exec .present s = .next { s with frameOut := some f, status := 0, errarg := 0, result := 0 } ∧
    f.length = s.cfg.npix ∧ ∀ p, p < s.cfg.npix → f[p]? = some (lookup s.pal (nibRead s.fb p))

/-- Every command word of a reset block emits a frame exactly when it is the PRESENT word (R33, R200). -/
def Obligations.OnlyThePresentWordEmitsAFrame : Prop :=
  ∀ (s : State) (w : CmdWord) (rest : List HostInput), s.wasReset = true → s.host = .command w :: rest →
    ∃ t, step s = .next t ∧ ((∃ f, t.frameOut = some f) ↔ w = 0x9000000000000000)

/-- Two PRESENTs with no command between them emit equal frames, and a PRESENT right after reset emits NPIX copies of entry 0
of the reset palette (corner cases of R200). -/
def Obligations.RepeatedAndFirstFrames : Prop :=
  (∀ s t u : State, exec .present s = .next t → exec .present t = .next u → u.frameOut = t.frameOut) ∧
  ∀ (cfg : Config) (pal : Palette) (host : List HostInput), ∃ t,
    exec .present (State.afterReset cfg pal host) = .next t ∧
    t.frameOut = some (List.replicate cfg.npix (lookup pal 0))

/-- The mux is total and picks its entry, packed (R186, R180). -/
def Obligations.LookupPacksTheChosenEntry : Prop :=
  ∀ (pal : Palette) (i : Index), ∃ e : Rgb, pal[i.toNat]? = some e ∧
    (lookup pal i).toNat = e.r.toNat * 2 ^ 16 + e.g.toNat * 2 ^ 8 + e.b.toNat

/-! ## Assembler (spec/30_encoding.md R81) -/

/-- The assembler's words for the spec's worked examples, and that an argument no field can carry is an error. A sanity
statement (R81; spec/95_test_vectors.md). -/
def Obligations.AssemblerGivesTheWorkedWords : Prop :=
  assemble Config.observed "pset(3, 4, 7)" = some 0x1003004007000000 ∧
  assemble Config.observed "span(0, 5, 127, 5, 6)" = some 0x200000507F005006 ∧
  assemble Config.observed "rectfill(-1, 0, 3, 3, 1)" = some 0x3FFF000003003001 ∧
  assemble Config.observed "line(0, 0, 4, 4, 1)" = some 0x4000000004004001 ∧
  assemble Config.observed "cset(0, 0xFF, 0, 0)" = some 0x50000FF000000000 ∧
  assemble Config.observed "pget(127, 127)" = some 0x607F07F000000000 ∧
  assemble Config.observed "getcolor(15)" = some 0x700F000000000000 ∧
  assemble Config.observed "rdbyte(8191)" = some 0x8FFF001000000000 ∧
  assemble Config.observed "present()" = some 0x9000000000000000 ∧
  assemble Config.observed "cls(1)" = some 0x300000007F07F001 ∧
  assemble Config.observed "pget(2048, 0)" = none ∧
  assemble Config.observed "rdbyte(16777216)" = none
end

