-- ==== Sys2Proof/Laws/State.lean ====
section
/-! SUPPORT. One lemma per field per update of State, each true by rfl, so that no later proof unfolds a record update. -/

namespace Sys2Proof.Machine

@[simp] theorem State.done_cfg (v : BitVec 32) (s : State) : (s.done v).cfg = s.cfg := rfl
@[simp] theorem State.done_fb (v : BitVec 32) (s : State) : (s.done v).fb = s.fb := rfl
@[simp] theorem State.done_pal (v : BitVec 32) (s : State) : (s.done v).pal = s.pal := rfl
@[simp] theorem State.done_status (v : BitVec 32) (s : State) : (s.done v).status = statusOk := rfl
@[simp] theorem State.done_errarg (v : BitVec 32) (s : State) : (s.done v).errarg = 0 := rfl
@[simp] theorem State.done_result (v : BitVec 32) (s : State) : (s.done v).result = v := rfl
@[simp] theorem State.done_frameOut (v : BitVec 32) (s : State) : (s.done v).frameOut = s.frameOut := rfl
@[simp] theorem State.done_wasReset (v : BitVec 32) (s : State) : (s.done v).wasReset = s.wasReset := rfl
@[simp] theorem State.done_host (v : BitVec 32) (s : State) : (s.done v).host = s.host := rfl

@[simp] theorem State.setFb_cfg (m : Memory) (s : State) : (s.setFb m).cfg = s.cfg := rfl
@[simp] theorem State.setFb_fb (m : Memory) (s : State) : (s.setFb m).fb = m := rfl
@[simp] theorem State.setFb_pal (m : Memory) (s : State) : (s.setFb m).pal = s.pal := rfl
@[simp] theorem State.setFb_status (m : Memory) (s : State) : (s.setFb m).status = s.status := rfl
@[simp] theorem State.setFb_errarg (m : Memory) (s : State) : (s.setFb m).errarg = s.errarg := rfl
@[simp] theorem State.setFb_result (m : Memory) (s : State) : (s.setFb m).result = s.result := rfl
@[simp] theorem State.setFb_frameOut (m : Memory) (s : State) : (s.setFb m).frameOut = s.frameOut := rfl
@[simp] theorem State.setFb_wasReset (m : Memory) (s : State) : (s.setFb m).wasReset = s.wasReset := rfl
@[simp] theorem State.setFb_host (m : Memory) (s : State) : (s.setFb m).host = s.host := rfl

@[simp] theorem State.setPal_cfg (i : Index) (e : Rgb) (s : State) : (s.setPal i e).cfg = s.cfg := rfl
@[simp] theorem State.setPal_fb (i : Index) (e : Rgb) (s : State) : (s.setPal i e).fb = s.fb := rfl
@[simp] theorem State.setPal_pal (i : Index) (e : Rgb) (s : State) : (s.setPal i e).pal = s.pal.set i.toNat e i.isLt := rfl
@[simp] theorem State.setPal_status (i : Index) (e : Rgb) (s : State) : (s.setPal i e).status = s.status := rfl
@[simp] theorem State.setPal_errarg (i : Index) (e : Rgb) (s : State) : (s.setPal i e).errarg = s.errarg := rfl
@[simp] theorem State.setPal_result (i : Index) (e : Rgb) (s : State) : (s.setPal i e).result = s.result := rfl
@[simp] theorem State.setPal_frameOut (i : Index) (e : Rgb) (s : State) : (s.setPal i e).frameOut = s.frameOut := rfl
@[simp] theorem State.setPal_wasReset (i : Index) (e : Rgb) (s : State) : (s.setPal i e).wasReset = s.wasReset := rfl
@[simp] theorem State.setPal_host (i : Index) (e : Rgb) (s : State) : (s.setPal i e).host = s.host := rfl

@[simp] theorem State.emitFrame_cfg (f : Frame) (s : State) : (s.emitFrame f).cfg = s.cfg := rfl
@[simp] theorem State.emitFrame_fb (f : Frame) (s : State) : (s.emitFrame f).fb = s.fb := rfl
@[simp] theorem State.emitFrame_pal (f : Frame) (s : State) : (s.emitFrame f).pal = s.pal := rfl
@[simp] theorem State.emitFrame_status (f : Frame) (s : State) : (s.emitFrame f).status = s.status := rfl
@[simp] theorem State.emitFrame_errarg (f : Frame) (s : State) : (s.emitFrame f).errarg = s.errarg := rfl
@[simp] theorem State.emitFrame_result (f : Frame) (s : State) : (s.emitFrame f).result = s.result := rfl
@[simp] theorem State.emitFrame_frameOut (f : Frame) (s : State) : (s.emitFrame f).frameOut = some f := rfl
@[simp] theorem State.emitFrame_wasReset (f : Frame) (s : State) : (s.emitFrame f).wasReset = s.wasReset := rfl
@[simp] theorem State.emitFrame_host (f : Frame) (s : State) : (s.emitFrame f).host = s.host := rfl

@[simp] theorem State.raiseError_cfg (e : CmdError) (s : State) : (s.raiseError e).cfg = s.cfg := rfl
@[simp] theorem State.raiseError_fb (e : CmdError) (s : State) : (s.raiseError e).fb = s.fb := rfl
@[simp] theorem State.raiseError_pal (e : CmdError) (s : State) : (s.raiseError e).pal = s.pal := rfl
@[simp] theorem State.raiseError_status (e : CmdError) (s : State) : (s.raiseError e).status = e.code := rfl
@[simp] theorem State.raiseError_errarg (e : CmdError) (s : State) : (s.raiseError e).errarg = e.arg := rfl
@[simp] theorem State.raiseError_result (e : CmdError) (s : State) : (s.raiseError e).result = 0 := rfl
@[simp] theorem State.raiseError_frameOut (e : CmdError) (s : State) : (s.raiseError e).frameOut = s.frameOut := rfl
@[simp] theorem State.raiseError_wasReset (e : CmdError) (s : State) : (s.raiseError e).wasReset = s.wasReset := rfl
@[simp] theorem State.raiseError_host (e : CmdError) (s : State) : (s.raiseError e).host = s.host := rfl

@[simp] theorem State.illegalCommand_cfg (e : Illegal) (s : State) : (s.illegalCommand e).cfg = s.cfg := rfl
@[simp] theorem State.illegalCommand_fb (e : Illegal) (s : State) : (s.illegalCommand e).fb = s.fb := rfl
@[simp] theorem State.illegalCommand_pal (e : Illegal) (s : State) : (s.illegalCommand e).pal = s.pal := rfl
@[simp] theorem State.illegalCommand_status (e : Illegal) (s : State) : (s.illegalCommand e).status = statusIllegalCommand := rfl
@[simp] theorem State.illegalCommand_errarg (e : Illegal) (s : State) : (s.illegalCommand e).errarg = e.errarg := rfl
@[simp] theorem State.illegalCommand_result (e : Illegal) (s : State) : (s.illegalCommand e).result = 0 := rfl
@[simp] theorem State.illegalCommand_frameOut (e : Illegal) (s : State) : (s.illegalCommand e).frameOut = s.frameOut := rfl
@[simp] theorem State.illegalCommand_wasReset (e : Illegal) (s : State) : (s.illegalCommand e).wasReset = s.wasReset := rfl
@[simp] theorem State.illegalCommand_host (e : Illegal) (s : State) : (s.illegalCommand e).host = s.host := rfl

@[simp] theorem State.accept_cfg (rest : List HostInput) (s : State) : (s.accept rest).cfg = s.cfg := rfl
@[simp] theorem State.accept_fb (rest : List HostInput) (s : State) : (s.accept rest).fb = s.fb := rfl
@[simp] theorem State.accept_pal (rest : List HostInput) (s : State) : (s.accept rest).pal = s.pal := rfl
@[simp] theorem State.accept_status (rest : List HostInput) (s : State) : (s.accept rest).status = s.status := rfl
@[simp] theorem State.accept_errarg (rest : List HostInput) (s : State) : (s.accept rest).errarg = s.errarg := rfl
@[simp] theorem State.accept_result (rest : List HostInput) (s : State) : (s.accept rest).result = s.result := rfl
@[simp] theorem State.accept_frameOut (rest : List HostInput) (s : State) : (s.accept rest).frameOut = none := rfl
@[simp] theorem State.accept_wasReset (rest : List HostInput) (s : State) : (s.accept rest).wasReset = s.wasReset := rfl
@[simp] theorem State.accept_host (rest : List HostInput) (s : State) : (s.accept rest).host = rest := rfl

@[simp] theorem State.applyReset_cfg (p : Palette) (s : State) : (s.applyReset p).cfg = s.cfg := rfl
@[simp] theorem State.applyReset_fb (p : Palette) (s : State) : (s.applyReset p).fb = [] := rfl
@[simp] theorem State.applyReset_pal (p : Palette) (s : State) : (s.applyReset p).pal = p := rfl
@[simp] theorem State.applyReset_status (p : Palette) (s : State) : (s.applyReset p).status = 0 := rfl
@[simp] theorem State.applyReset_errarg (p : Palette) (s : State) : (s.applyReset p).errarg = 0 := rfl
@[simp] theorem State.applyReset_result (p : Palette) (s : State) : (s.applyReset p).result = 0 := rfl
@[simp] theorem State.applyReset_frameOut (p : Palette) (s : State) : (s.applyReset p).frameOut = none := rfl
@[simp] theorem State.applyReset_wasReset (p : Palette) (s : State) : (s.applyReset p).wasReset = true := rfl
@[simp] theorem State.applyReset_host (p : Palette) (s : State) : (s.applyReset p).host = s.host := rfl

@[simp] theorem State.withFetchWord_cfg (s : State) (nbits w : Nat) : (s.withFetchWord nbits w).cfg = s.cfg := rfl
@[simp] theorem State.withFetchWord_fb (s : State) (nbits w : Nat) : (s.withFetchWord nbits w).fb = s.fb := rfl
@[simp] theorem State.withFetchWord_pal (s : State) (nbits w : Nat) : (s.withFetchWord nbits w).pal = s.pal := rfl
@[simp] theorem State.withFetchWord_status (s : State) (nbits w : Nat) : (s.withFetchWord nbits w).status = s.status := rfl
@[simp] theorem State.withFetchWord_errarg (s : State) (nbits w : Nat) : (s.withFetchWord nbits w).errarg = s.errarg := rfl
@[simp] theorem State.withFetchWord_result (s : State) (nbits w : Nat) : (s.withFetchWord nbits w).result = s.result := rfl
@[simp] theorem State.withFetchWord_frameOut (s : State) (nbits w : Nat) : (s.withFetchWord nbits w).frameOut = s.frameOut := rfl
@[simp] theorem State.withFetchWord_wasReset (s : State) (nbits w : Nat) : (s.withFetchWord nbits w).wasReset = true := rfl
@[simp] theorem State.withFetchWord_host (s : State) (nbits w : Nat) : (s.withFetchWord nbits w).host = .command (tableWord nbits w) :: s.host := rfl

@[simp] theorem State.afterReset_cfg (c : Config) (p : Palette) (h : List HostInput) :
    (State.afterReset c p h).cfg = c := rfl
@[simp] theorem State.afterReset_fb (c : Config) (p : Palette) (h : List HostInput) :
    (State.afterReset c p h).fb = [] := rfl
@[simp] theorem State.afterReset_pal (c : Config) (p : Palette) (h : List HostInput) :
    (State.afterReset c p h).pal = p := rfl
@[simp] theorem State.afterReset_status (c : Config) (p : Palette) (h : List HostInput) :
    (State.afterReset c p h).status = 0 := rfl
@[simp] theorem State.afterReset_errarg (c : Config) (p : Palette) (h : List HostInput) :
    (State.afterReset c p h).errarg = 0 := rfl
@[simp] theorem State.afterReset_result (c : Config) (p : Palette) (h : List HostInput) :
    (State.afterReset c p h).result = 0 := rfl
@[simp] theorem State.afterReset_frameOut (c : Config) (p : Palette) (h : List HostInput) :
    (State.afterReset c p h).frameOut = none := rfl
@[simp] theorem State.afterReset_wasReset (c : Config) (p : Palette) (h : List HostInput) :
    (State.afterReset c p h).wasReset = true := rfl
@[simp] theorem State.afterReset_host (c : Config) (p : Palette) (h : List HostInput) :
    (State.afterReset c p h).host = h := rfl

end Sys2Proof.Machine
end

