-- ==== Sys2Proof/Laws/Checks.lean ====
section
/-! SUPPORT. What the argument checks and the end of a command do: once each, so that no later proof unfolds them. -/

namespace Sys2Proof.Machine

theorem checkRange_eq_none {bound : Nat} {k : BitVec 3} {a : Int} :
    checkRange bound k a = none ↔ 0 ≤ a ∧ a < bound := by
  unfold checkRange; split <;> simp_all

theorem checkRange_eq_some {bound : Nat} {k : BitVec 3} {a : Int} {e : CmdError} :
    checkRange bound k a = some e ↔ ¬(0 ≤ a ∧ a < bound) ∧ e = ⟨statusArgOutOfRange, k⟩ := by
  unfold checkRange; split <;> simp_all [eq_comm]

@[simp] theorem firstFailure_nil : firstFailure [] = none := rfl

@[simp] theorem firstFailure_some (e : CmdError) (cs : List (Option CmdError)) :
    firstFailure (some e :: cs) = some e := rfl

@[simp] theorem firstFailure_none (cs : List (Option CmdError)) : firstFailure (none :: cs) = firstFailure cs := rfl

/-- No check fails exactly when every check passes. -/
theorem firstFailure_eq_none : ∀ {cs : List (Option CmdError)}, firstFailure cs = none ↔ ∀ c ∈ cs, c = none := by
  intro cs
  induction cs with
  | nil => simp
  | cons c cs ih => cases c <;> simp [ih]

/-- The reported error is that of a failed check. -/
theorem firstFailure_mem : ∀ {cs : List (Option CmdError)} {e : CmdError}, firstFailure cs = some e → some e ∈ cs := by
  intro cs
  induction cs with
  | nil => simp
  | cons c cs ih => cases c <;> simp_all

@[simp] theorem finish_none (s ok : State) : finish none s ok = .next ok := rfl

@[simp] theorem finish_some (e : CmdError) (s ok : State) : finish (some e) s ok = .next (s.raiseError e) := rfl

/-- Ending a command answers the raised error of a failed check, or the successful state. -/
theorem finish_cases {f : Option CmdError} {s ok t : State} (h : finish f s ok = .next t) :
    (∃ e, f = some e ∧ t = s.raiseError e) ∨ (f = none ∧ t = ok) := by
  cases f with
  | none => exact .inr ⟨rfl, by simpa using h.symm⟩
  | some e => exact .inl ⟨e, rfl, by simpa using h.symm⟩

/-- The checks of the two-endpoint commands pass exactly when both endpoints and the index are in range. -/
theorem checkEndpoints_eq_none {c : Config} {x1 y1 x2 y2 ci : Int} :
    checkEndpoints c x1 y1 x2 y2 ci = none ↔
      (0 ≤ x1 ∧ x1 < c.w) ∧ (0 ≤ y1 ∧ y1 < c.h) ∧ (0 ≤ x2 ∧ x2 < c.w) ∧ (0 ≤ y2 ∧ y2 < c.h) ∧
        (0 ≤ ci ∧ ci < 16) := by
  simp [checkEndpoints, firstFailure_eq_none, checkX, checkY, checkIndex, checkRange_eq_none]

theorem checkAddr_eq_none {c : Config} {a : Nat} : checkAddr c a = none ↔ a < c.nbytes := by
  unfold checkAddr; split <;> simp_all

/-- The position of an in-range pixel is inside the grid. -/
theorem pixelPos_lt {c : Config} {x y : Int} (hx : 0 ≤ x ∧ x < c.w) (hy : 0 ≤ y ∧ y < c.h) :
    pixelPos c x y < c.npix := by
  obtain ⟨a, rfl⟩ := Int.eq_ofNat_of_zero_le hx.1
  obtain ⟨b, rfl⟩ := Int.eq_ofNat_of_zero_le hy.1
  have ha : a < c.w := by omega
  have hb : b + 1 ≤ c.h := by omega
  have : pixelPos c (a : Int) (b : Int) = a + b * c.w := by
    unfold pixelPos; exact_mod_cast Int.toNat_natCast _
  rw [this]
  calc a + b * c.w < (b + 1) * c.w := by ring_nf; omega
    _ ≤ c.h * c.w := Nat.mul_le_mul_right _ hb
    _ = c.npix := Nat.mul_comm _ _

/-- A position inside the grid lies in a byte of the buffer. -/
theorem byte_lt_nbytes {c : Config} {p : Nat} (h : p < c.npix) : p / 2 < c.nbytes := by
  unfold Config.nbytes; omega

end Sys2Proof.Machine
end

