-- ==== Sys2Proof/Laws/Decode.lean ====
section
/-! SUPPORT. The fields of a packed word, and what the reserved-field check answers. -/

namespace Sys2Proof

theorem toNat_append_eq {m n : Nat} (x : BitVec m) (y : BitVec n) : (x ++ y).toNat = x.toNat * 2 ^ n + y.toNat := by
  rw [BitVec.toNat_append, ← Nat.shiftLeft_add_eq_or_of_lt y.isLt, Nat.shiftLeft_eq]

/-- The value of a packed word is the sum of its shifted fields (R80). -/
theorem toNat_packWord (op : BitVec 4) (a0 a1 a2 a3 a4 : ArgField) :
    (packWord op (a0, a1, a2, a3, a4)).toNat =
      op.toNat * 2 ^ 60 + a0.toNat * 2 ^ 48 + a1.toNat * 2 ^ 36 + a2.toNat * 2 ^ 24 + a3.toNat * 2 ^ 12 + a4.toNat := by
  simp only [packWord, toNat_append_eq]; ring

/-- A raw field as a number. -/
theorem toNat_argField (w : CmdWord) (k : Fin 5) :
    (argField w k).toNat = w.toNat / 2 ^ (48 - 12 * k.val) % 2 ^ 12 := by
  simp [argField, BitVec.extractLsb'_toNat, Nat.shiftRight_eq_div_pow]

/-- The opcode as a number. -/
theorem toNat_opField (w : CmdWord) : (opField w).toNat = w.toNat / 2 ^ 60 % 2 ^ 4 := by
  simp [opField, BitVec.extractLsb'_toNat, Nat.shiftRight_eq_div_pow]

/-- Field `k` of a packed word, by the field's place. -/
theorem argField_packWord_aux (op : BitVec 4) (a0 a1 a2 a3 a4 a : ArgField) (k : Fin 5) (n : Nat)
    (hn : 48 - 12 * k.val = n)
    (ha : (op.toNat * 2 ^ 60 + a0.toNat * 2 ^ 48 + a1.toNat * 2 ^ 36 + a2.toNat * 2 ^ 24 + a3.toNat * 2 ^ 12 +
      a4.toNat) / 2 ^ n % 2 ^ 12 = a.toNat) :
    argField (packWord op (a0, a1, a2, a3, a4)) k = a := by
  apply BitVec.eq_of_toNat_eq
  rw [toNat_argField, toNat_packWord, hn, ha]

section
variable (op : BitVec 4) (a0 a1 a2 a3 a4 : ArgField)

@[simp] theorem opField_packWord : opField (packWord op (a0, a1, a2, a3, a4)) = op := by
  have h0 := a0.isLt; have h1 := a1.isLt; have h2 := a2.isLt; have h3 := a3.isLt; have h4 := a4.isLt
  have := op.isLt
  apply BitVec.eq_of_toNat_eq
  rw [toNat_opField, toNat_packWord]
  omega

@[simp] theorem argField_packWord_zero : argField (packWord op (a0, a1, a2, a3, a4)) 0 = a0 := by
  have h0 := a0.isLt; have h1 := a1.isLt; have h2 := a2.isLt; have h3 := a3.isLt; have h4 := a4.isLt
  exact argField_packWord_aux op a0 a1 a2 a3 a4 a0 0 48 rfl (by omega)

@[simp] theorem argField_packWord_one : argField (packWord op (a0, a1, a2, a3, a4)) 1 = a1 := by
  have h0 := a0.isLt; have h1 := a1.isLt; have h2 := a2.isLt; have h3 := a3.isLt; have h4 := a4.isLt
  exact argField_packWord_aux op a0 a1 a2 a3 a4 a1 1 36 rfl (by omega)

@[simp] theorem argField_packWord_two : argField (packWord op (a0, a1, a2, a3, a4)) 2 = a2 := by
  have h0 := a0.isLt; have h1 := a1.isLt; have h2 := a2.isLt; have h3 := a3.isLt; have h4 := a4.isLt
  exact argField_packWord_aux op a0 a1 a2 a3 a4 a2 2 24 rfl (by omega)

@[simp] theorem argField_packWord_three : argField (packWord op (a0, a1, a2, a3, a4)) 3 = a3 := by
  have h0 := a0.isLt; have h1 := a1.isLt; have h2 := a2.isLt; have h3 := a3.isLt; have h4 := a4.isLt
  exact argField_packWord_aux op a0 a1 a2 a3 a4 a3 3 12 rfl (by omega)

@[simp] theorem argField_packWord_four : argField (packWord op (a0, a1, a2, a3, a4)) 4 = a4 := by
  have h0 := a0.isLt; have h1 := a1.isLt; have h2 := a2.isLt; have h3 := a3.isLt; have h4 := a4.isLt
  exact argField_packWord_aux op a0 a1 a2 a3 a4 a4 4 0 rfl (by omega)

end

/-- A word is its opcode and its five raw fields. -/
theorem packWord_fields (w : CmdWord) :
    packWord (opField w) (argField w 0, argField w 1, argField w 2, argField w 3, argField w 4) = w := by
  apply BitVec.eq_of_toNat_eq
  rw [toNat_packWord, toNat_opField, toNat_argField, toNat_argField, toNat_argField, toNat_argField, toNat_argField]
  have := w.isLt
  have e0 : ((0 : Fin 5) : Nat) = 0 := rfl
  have e1 : ((1 : Fin 5) : Nat) = 1 := rfl
  have e2 : ((2 : Fin 5) : Nat) = 2 := rfl
  have e3 : ((3 : Fin 5) : Nat) = 3 := rfl
  have e4 : ((4 : Fin 5) : Nat) = 4 := rfl
  rw [e0, e1, e2, e3, e4]
  omega

/-- Masking a packed word masks its fields. -/
theorem packWord_and (o o' : BitVec 4) (a b c d e a' b' c' d' e' : ArgField) :
    packWord o (a, b, c, d, e) &&& packWord o' (a', b', c', d', e') =
      packWord (o &&& o') (a &&& a', b &&& b', c &&& c', d &&& d', e &&& e') := by
  have h : ∀ {m n : Nat} (x1 x2 : BitVec m) (y1 y2 : BitVec n),
      (x1 ++ y1) &&& (x2 ++ y2) = (x1 &&& x2) ++ (y1 &&& y2) := fun _ _ _ _ => BitVec.and_append
  exact (h _ _ _ _).trans (congrArg (· ++ (e &&& e')) ((h _ _ _ _).trans (congrArg (· ++ (d &&& d'))
    ((h _ _ _ _).trans (congrArg (· ++ (c &&& c')) ((h _ _ _ _).trans (congrArg (· ++ (b &&& b')) (h _ _ _ _))))))))

/-- Packed words are equal exactly when their fields are. -/
theorem packWord_inj {o o' : BitVec 4} {a b c d e a' b' c' d' e' : ArgField} :
    packWord o (a, b, c, d, e) = packWord o' (a', b', c', d', e') ↔
      o = o' ∧ a = a' ∧ b = b' ∧ c = c' ∧ d = d' ∧ e = e' := by
  constructor
  · intro h
    exact ⟨by simpa using congrArg opField h, by simpa using congrArg (argField · 0) h,
      by simpa using congrArg (argField · 1) h, by simpa using congrArg (argField · 2) h,
      by simpa using congrArg (argField · 3) h, by simpa using congrArg (argField · 4) h⟩
  · rintro ⟨rfl, rfl, rfl, rfl, rfl, rfl⟩; rfl

/-- A field carries every argument that fits it (R72, R80). -/
theorem toInt_fieldOf {v : Int} (h : fitsField v = true) : (fieldOf v).toInt = v := by
  have hv : -2048 ≤ v ∧ v ≤ 2047 := by simpa [fitsField] using h
  rw [fieldOf, BitVec.toInt_ofInt]
  exact Int.bmod_eq_of_le (by omega) (by omega)

/-- Every value a field reads as fits a field. -/
theorem fitsField_toInt (a : ArgField) : fitsField a.toInt = true := by
  have h1 := BitVec.le_toInt a
  have h2 := BitVec.toInt_lt (x := a)
  simp only [fitsField, decide_eq_true_eq]
  omega

/-- Encoding what a field reads as gives the field back. -/
theorem fieldOf_toInt (a : ArgField) : fieldOf a.toInt = a := BitVec.ofInt_toInt

/-- The check passes exactly when every listed reserved field is zero. -/
theorem guardReserved_eq_command {w : CmdWord} {i j : Instr} : ∀ {ks : List (Fin 5)},
    guardReserved w ks i = .command j ↔ (∀ k ∈ ks, argField w k = 0) ∧ i = j := by
  intro ks
  induction ks with
  | nil => simp [guardReserved]
  | cons k ks ih => by_cases h : argField w k = 0#12 <;> simp [guardReserved, h, ih]

/-- The check fails exactly with the first listed nonzero field. -/
theorem guardReserved_eq_illegal {w : CmdWord} {i : Instr} {e : Illegal} : ∀ {ks : List (Fin 5)},
    guardReserved w ks i = .illegal e ↔
      ∃ pre k post, ks = pre ++ k :: post ∧ (∀ j ∈ pre, argField w j = 0) ∧ argField w k ≠ 0 ∧ e = .reserved k := by
  intro ks
  induction ks with
  | nil => simp [guardReserved]
  | cons k ks ih =>
    by_cases h : argField w k = 0
    · simp only [guardReserved, h, if_true, ih]
      constructor
      · rintro ⟨pre, j, post, rfl, hp, hj, he⟩
        exact ⟨k :: pre, j, post, rfl, by simpa [h] using hp, hj, he⟩
      · rintro ⟨pre, j, post, hk, hp, hj, he⟩
        cases pre with
        | nil => simp only [List.nil_append, List.cons.injEq] at hk; exact absurd (hk.1 ▸ h) hj
        | cons a pre =>
          simp only [List.cons_append, List.cons.injEq] at hk
          exact ⟨pre, j, post, hk.2, fun x hx => hp x (by simp [hx]), hj, he⟩
    · simp only [guardReserved, h, if_false, Decoded.illegal.injEq]
      constructor
      · rintro rfl; exact ⟨[], k, ks, rfl, by simp, h, rfl⟩
      · rintro ⟨pre, j, post, hk, hp, hj, he⟩
        cases pre with
        | nil => simp only [List.nil_append, List.cons.injEq] at hk; rw [he, hk.1]
        | cons a pre =>
          simp only [List.cons_append, List.cons.injEq] at hk
          exact absurd (hk.1 ▸ hp a (by simp)) h

end Sys2Proof
end

