-- ==== Sys2Proof/Laws/Memory.lean ====
section
/-! SUPPORT. What reading and writing the bytes of the pixel buffer do: read after write, the canonical form, and that equal
contents in canonical form are equal memories. -/

namespace Sys2Proof.Machine

@[simp] theorem Memory.read_nil (a : Nat) : Memory.read [] a = unlistedByte := rfl

theorem Memory.read_cons (b : Nat) (v : Byte) (m : Memory) (a : Nat) :
    Memory.read ((b, v) :: m) a = if a = b then v else Memory.read m a := rfl

theorem Memory.wfFrom_cons (lo a : Nat) (v : Byte) (m : Memory) :
    Memory.wfFrom lo ((a, v) :: m) = true ↔ lo ≤ a ∧ v ≠ unlistedByte ∧ Memory.wfFrom (a + 1) m = true := by
  simp [Memory.wfFrom, and_assoc]

theorem Memory.wfFrom_mono {lo lo' : Nat} (h : lo' ≤ lo) {m : Memory} (hm : Memory.wfFrom lo m = true) :
    Memory.wfFrom lo' m = true := by
  cases m with
  | nil => rfl
  | cons x m =>
    rw [Memory.wfFrom_cons] at hm ⊢
    exact ⟨by omega, hm.2⟩

/-- Below the first address a canonical memory can list, every byte is unlisted. -/
theorem Memory.read_below {m : Memory} : ∀ {lo a : Nat}, Memory.wfFrom lo m = true → a < lo →
    Memory.read m a = unlistedByte := by
  induction m with
  | nil => intros; rfl
  | cons x m ih =>
    obtain ⟨b, v⟩ := x
    intro lo a hm ha
    rw [Memory.wfFrom_cons] at hm
    rw [Memory.read_cons, if_neg (by omega), ih hm.2.2 (by omega)]

theorem Memory.wfFrom_write {m : Memory} : ∀ {lo a : Nat} (v : Byte), Memory.wfFrom lo m = true → lo ≤ a →
    Memory.wfFrom lo (Memory.write m a v) = true := by
  induction m with
  | nil =>
    intro lo a v _ ha
    simp only [Memory.write]
    split
    · rfl
    · rw [Memory.wfFrom_cons]; exact ⟨ha, ‹_›, rfl⟩
  | cons x m ih =>
    obtain ⟨b, u⟩ := x
    intro lo a v hm ha
    have hm' := hm
    rw [Memory.wfFrom_cons] at hm'
    obtain ⟨h1, h2, h3⟩ := hm'
    simp only [Memory.write]
    split
    · split
      · exact hm
      · simp only [Memory.wfFrom_cons]; exact ⟨ha, ‹_›, by omega, h2, h3⟩
    · split
      · split
        · exact Memory.wfFrom_mono (by omega) h3
        · rw [Memory.wfFrom_cons]
          subst ‹a = b›
          exact ⟨h1, ‹_›, h3⟩
      · rw [Memory.wfFrom_cons]; exact ⟨h1, h2, ih v h3 (by omega)⟩

/-- A write keeps the canonical form. -/
theorem Memory.wf_write {m : Memory} (hm : m.wf = true) (a : Nat) (v : Byte) : (m.write a v).wf = true :=
  Memory.wfFrom_write v hm (Nat.zero_le a)

theorem Memory.read_write_from {m : Memory} : ∀ {lo : Nat} (a : Nat) (v : Byte) (b : Nat),
    Memory.wfFrom lo m = true →
    Memory.read (Memory.write m a v) b = if b = a then v else Memory.read m b := by
  induction m with
  | nil =>
    intro lo a v b _
    by_cases hv : v = unlistedByte
    · simp [Memory.write, hv]
    · simp [Memory.write, hv, Memory.read_cons]
  | cons x m ih =>
    obtain ⟨c, u⟩ := x
    intro lo a v b hm
    rw [Memory.wfFrom_cons] at hm
    obtain ⟨-, -, h3⟩ := hm
    simp only [Memory.write]
    split
    · rename_i hac
      split
      · rename_i hv
        by_cases hb : b = a
        · subst hb
          rw [if_pos rfl, Memory.read_cons, if_neg (by omega), Memory.read_below h3 (by omega), hv]
        · rw [if_neg hb]
      · rw [Memory.read_cons]
    · split
      · rename_i hac hac'
        subst hac'
        split
        · rename_i hv
          by_cases hb : b = a
          · subst hb; rw [if_pos rfl, Memory.read_below h3 (by omega), hv]
          · rw [if_neg hb, Memory.read_cons, if_neg hb]
        · rw [Memory.read_cons, Memory.read_cons]
          by_cases hb : b = a <;> simp [hb]
      · rename_i hac hac'
        rw [Memory.read_cons, Memory.read_cons, ih a v b h3]
        by_cases hb : b = c
        · subst hb; rw [if_pos rfl, if_pos rfl, if_neg (fun h => hac' h.symm)]
        · simp [hb]

/-- Reading after a write: the written byte at its address, every other byte as before. -/
theorem Memory.read_write {m : Memory} (hm : m.wf = true) (a : Nat) (v : Byte) (b : Nat) :
    (m.write a v).read b = if b = a then v else m.read b :=
  Memory.read_write_from a v b hm

/-- A block of byte writes keeps the canonical form. -/
theorem Memory.wf_fill (v : Byte) (n : Nat) : ∀ {m : Memory} (b : Nat), m.wf = true → (m.fill b n v).wf = true := by
  induction n with
  | zero => intro m b hm; exact hm
  | succ n ih => intro m b hm; exact ih (b + 1) (Memory.wf_write hm b v)

/-- Reading after a block of byte writes. -/
theorem Memory.read_fill (v : Byte) (n : Nat) : ∀ {m : Memory} (b : Nat) (a : Nat), m.wf = true →
    (m.fill b n v).read a = if b ≤ a ∧ a < b + n then v else m.read a := by
  induction n with
  | zero => intro m b a _; rw [if_neg (by omega)]; rfl
  | succ n ih =>
    intro m b a hm
    rw [Memory.fill, ih (b + 1) a (Memory.wf_write hm b v), Memory.read_write hm]
    by_cases h : b ≤ a ∧ a < b + (n + 1)
    · rw [if_pos h]
      by_cases h' : a = b
      · rw [if_neg (by omega), if_pos h']
      · rw [if_pos (by omega)]
    · rw [if_neg h, if_neg (by omega), if_neg (by omega)]

theorem Memory.ext_from {m : Memory} : ∀ {m' : Memory} {lo : Nat}, Memory.wfFrom lo m = true →
    Memory.wfFrom lo m' = true → (∀ a, Memory.read m a = Memory.read m' a) → m = m' := by
  induction m with
  | nil =>
    intro m' lo _ hm' h
    cases m' with
    | nil => rfl
    | cons y m' =>
      obtain ⟨b, u⟩ := y
      rw [Memory.wfFrom_cons] at hm'
      have := h b
      rw [Memory.read_cons, if_pos rfl, Memory.read_nil] at this
      exact absurd this.symm hm'.2.1
  | cons x m ih =>
    obtain ⟨a, v⟩ := x
    intro m' lo hm hm' h
    rw [Memory.wfFrom_cons] at hm
    cases m' with
    | nil =>
      have := h a
      rw [Memory.read_cons, if_pos rfl, Memory.read_nil] at this
      exact absurd this hm.2.1
    | cons y m' =>
      obtain ⟨b, u⟩ := y
      rw [Memory.wfFrom_cons] at hm'
      have hab : a = b := by
        have h1 := h a
        have h2 := h b
        rw [Memory.read_cons, if_pos rfl, Memory.read_cons] at h1
        rw [Memory.read_cons, Memory.read_cons, if_pos rfl] at h2
        rcases Nat.lt_trichotomy a b with hlt | heq | hgt
        · rw [if_neg (by omega), Memory.read_below hm'.2.2 (by omega)] at h1
          exact absurd h1 hm.2.1
        · exact heq
        · rw [if_neg (by omega), Memory.read_below hm.2.2 (by omega)] at h2
          exact absurd h2.symm hm'.2.1
      subst hab
      have hv : v = u := by simpa [Memory.read_cons] using h a
      subst hv
      have : m = m' := by
        refine ih hm.2.2 hm'.2.2 fun c => ?_
        by_cases hc : c = a
        · subst hc
          rw [Memory.read_below hm.2.2 (by omega), Memory.read_below hm'.2.2 (by omega)]
        · simpa [Memory.read_cons, hc] using h c
      rw [this]

/-- Canonical memories with equal contents are equal data. -/
theorem Memory.ext_of_read {m m' : Memory} (hm : m.wf = true) (hm' : m'.wf = true)
    (h : ∀ a, m.read a = m'.read a) : m = m' :=
  Memory.ext_from hm hm' h

/-- A canonical memory lists an address exactly when its byte is not the unlisted one. -/
theorem Memory.mem_iff_read {m : Memory} : ∀ {lo : Nat}, Memory.wfFrom lo m = true → ∀ a v,
    ((a, v) ∈ m ↔ Memory.read m a = v ∧ v ≠ unlistedByte) := by
  induction m with
  | nil => intro lo _ a v; simp [eq_comm]
  | cons x m ih =>
    obtain ⟨b, u⟩ := x
    intro lo hm a v
    rw [Memory.wfFrom_cons] at hm
    rw [Memory.read_cons, List.mem_cons, ih hm.2.2]
    by_cases hab : a = b
    · subst hab
      rw [if_pos rfl, Memory.read_below hm.2.2 (by omega)]
      constructor
      · rintro (h | ⟨h1, h2⟩)
        · cases h; exact ⟨rfl, hm.2.1⟩
        · exact absurd h1.symm h2
      · rintro ⟨rfl, _⟩; exact .inl rfl
    · rw [if_neg hab]
      simp [hab]

end Sys2Proof.Machine
end

