-- ==== Sys2Proof/Laws/Nibble.lean ====
section
/-! SUPPORT. What the nibble primitives do to the bytes and pixels of the buffer. -/

namespace Sys2Proof.Machine

@[simp] theorem loNibble_packByte (hi lo : Index) : loNibble (packByte hi lo) = lo := by
  revert hi lo; decide

@[simp] theorem hiNibble_packByte (hi lo : Index) : hiNibble (packByte hi lo) = hi := by
  revert hi lo; decide

@[simp] theorem packByte_nibbles (v : Byte) : packByte (hiNibble v) (loNibble v) = v := by
  revert v; decide

@[simp] theorem loNibble_fillByte (c : Index) : loNibble (fillByte c) = c := loNibble_packByte c c

@[simp] theorem hiNibble_fillByte (c : Index) : hiNibble (fillByte c) = c := hiNibble_packByte c c

/-- Two bytes are equal when both nibbles are. -/
theorem byte_ext {u v : Byte} (hl : loNibble u = loNibble v) (hh : hiNibble u = hiNibble v) : u = v := by
  rw [← packByte_nibbles u, ← packByte_nibbles v, hl, hh]

theorem nibRead_even {p : Nat} (h : p % 2 = 0) (fb : Memory) : nibRead fb p = loNibble (fb.read (p / 2)) := if_pos h

theorem nibRead_odd {p : Nat} (h : p % 2 = 1) (fb : Memory) : nibRead fb p = hiNibble (fb.read (p / 2)) :=
  if_neg (by omega)

/-- A byte is the pair of the pixels at positions `2b` and `2b + 1`. -/
theorem read_eq_packByte (fb : Memory) (b : Nat) :
    fb.read b = packByte (nibRead fb (2 * b + 1)) (nibRead fb (2 * b)) := by
  rw [nibRead_odd (by omega), nibRead_even (by omega), show (2 * b + 1) / 2 = b by omega,
    show 2 * b / 2 = b by omega, packByte_nibbles]

/-- A nibble write keeps the canonical form. -/
theorem wf_nibWrite {fb : Memory} (h : fb.wf = true) (p : Nat) (c : Index) : (nibWrite fb p c).wf = true := by
  unfold nibWrite; split <;> exact Memory.wf_write h _ _

/-- A nibble write changes no byte but its own. -/
theorem read_nibWrite_other {fb : Memory} (h : fb.wf = true) (p : Nat) (c : Index) {a : Nat} (ha : a ≠ p / 2) :
    (nibWrite fb p c).read a = fb.read a := by
  unfold nibWrite; split <;> rw [Memory.read_write h, if_neg ha]

/-- A nibble write sets its pixel and keeps every other one. -/
theorem nibRead_nibWrite_eq {fb : Memory} (h : fb.wf = true) (p : Nat) (c : Index) (q : Nat) :
    nibRead (nibWrite fb p c) q = if q = p then c else nibRead fb q := by
  by_cases hb : q / 2 = p / 2
  · rcases Nat.mod_two_eq_zero_or_one p with hp | hp <;> rcases Nat.mod_two_eq_zero_or_one q with hq | hq
    · rw [if_pos (by omega), nibRead_even hq, nibWrite, if_pos hp, Memory.read_write h, if_pos hb, loNibble_packByte]
    · rw [if_neg (by omega), nibRead_odd hq, nibRead_odd hq, nibWrite, if_pos hp, Memory.read_write h, if_pos hb,
        hiNibble_packByte, hb]
    · rw [if_neg (by omega), nibRead_even hq, nibRead_even hq, nibWrite, if_neg (by omega), Memory.read_write h,
        if_pos hb, loNibble_packByte, hb]
    · rw [if_pos (by omega), nibRead_odd hq, nibWrite, if_neg (by omega), Memory.read_write h, if_pos hb,
        hiNibble_packByte]
  · rw [if_neg (fun e => hb (by rw [e]))]
    simp only [nibRead]
    rw [read_nibWrite_other h p c hb]

/-- Reading a pixel after a block of fill bytes. -/
theorem nibRead_fill {fb : Memory} (h : fb.wf = true) (b n : Nat) (c : Index) (q : Nat) :
    nibRead (fb.fill b n (fillByte c)) q = if b ≤ q / 2 ∧ q / 2 < b + n then c else nibRead fb q := by
  unfold nibRead
  rw [Memory.read_fill _ n b _ h]
  split <;> split <;> simp

/-- Canonical memories with equal pixels are equal data. -/
theorem fb_ext {m m' : Memory} (hm : m.wf = true) (hm' : m'.wf = true) (h : ∀ q, nibRead m q = nibRead m' q) :
    m = m' :=
  Memory.ext_of_read hm hm' fun a => by rw [read_eq_packByte, read_eq_packByte, h, h]

end Sys2Proof.Machine
end

