-- ==== Sys2Proof/Laws/Exec.lean ====
section
/-! SUPPORT. Inversion of exec and step: everything a command, and a step, can do. -/

namespace Sys2Proof.Machine

/-- The pixel buffer a successful command leaves (only the four drawing commands write it). -/
def drawnFb : Instr → State → Memory
  | .pset x y c, s => nibWrite s.fb (pixelPos s.cfg x y) (indexOf c)
  | .span x1 y1 x2 y2 c, s => fillRun s.fb (pixelPos s.cfg x1 y1) (pixelPos s.cfg x2 y2) (indexOf c)
  | .rectfill x1 y1 x2 y2 c, s => fillRect s.cfg x1 y1 x2 y2 (indexOf c) s.fb
  | .line x1 y1 x2 y2 c, s => plotAll s.cfg (indexOf c) (bresenham x1 y1 x2 y2) s.fb
  | .cset .., s => s.fb
  | .pget .., s => s.fb
  | .getcolor .., s => s.fb
  | .rdbyte .., s => s.fb
  | .present, s => s.fb

/-- The palette a successful command leaves (only CSET writes it). -/
def writtenPal : Instr → State → Palette
  | .cset c r g b, s => s.pal.set (indexOf c).toNat ⟨channelOf r, channelOf g, channelOf b⟩ (indexOf c).isLt
  | .pset .., s => s.pal
  | .span .., s => s.pal
  | .rectfill .., s => s.pal
  | .line .., s => s.pal
  | .pget .., s => s.pal
  | .getcolor .., s => s.pal
  | .rdbyte .., s => s.pal
  | .present, s => s.pal

/-- RESULT after a successful command. -/
def readResult : Instr → State → BitVec 32
  | .pget x y, s => (nibRead s.fb (pixelPos s.cfg x y)).setWidth 32
  | .getcolor c, s => (packRgb (palEntry s.pal (indexOf c))).setWidth 32
  | .rdbyte a, s => (s.fb.read a).setWidth 32
  | .pset .., _ => 0
  | .span .., _ => 0
  | .rectfill .., _ => 0
  | .line .., _ => 0
  | .cset .., _ => 0
  | .present, _ => 0

/-- The frame port after a successful command (only PRESENT writes it). -/
def emittedFrame : Instr → State → Option Frame
  | .present, s => some (frameOf s.cfg s.fb s.pal)
  | .pset .., s => s.frameOut
  | .span .., s => s.frameOut
  | .rectfill .., s => s.frameOut
  | .line .., s => s.frameOut
  | .cset .., s => s.frameOut
  | .pget .., s => s.frameOut
  | .getcolor .., s => s.frameOut
  | .rdbyte .., s => s.frameOut

/-- The range checks of a command, in the order it applies them. -/
def checksOf : Instr → Config → Option CmdError
  | .pset x y c, cfg => firstFailure [checkX cfg 0 x, checkY cfg 1 y, checkIndex 2 c]
  | .span x1 y1 x2 y2 c, cfg => checkEndpoints cfg x1 y1 x2 y2 c
  | .rectfill x1 y1 x2 y2 c, cfg => checkEndpoints cfg x1 y1 x2 y2 c
  | .line x1 y1 x2 y2 c, cfg => checkEndpoints cfg x1 y1 x2 y2 c
  | .cset c r g b, _ => firstFailure [checkIndex 0 c, checkChannel 1 r, checkChannel 2 g, checkChannel 3 b]
  | .pget x y, cfg => firstFailure [checkX cfg 0 x, checkY cfg 1 y]
  | .getcolor c, _ => firstFailure [checkIndex 0 c]
  | .rdbyte a, cfg => checkAddr cfg a
  | .present, _ => none

/-- The whole effect of a successful command. -/
def succeeded (i : Instr) (s : State) : State :=
  { s with
    fb := drawnFb i s
    pal := writtenPal i s
    status := statusOk
    errarg := 0
    result := readResult i s
    frameOut := emittedFrame i s }

/-- Every command ends with its first failed check or with its whole effect. -/
theorem exec_eq_finish (i : Instr) (s : State) : exec i s = finish (checksOf i s.cfg) s (succeeded i s) := by
  cases i <;> rfl

/-- Everything a command can do: raise the error of its first failed check, or have its whole effect. -/
theorem exec_cases {i : Instr} {s t : State} (h : exec i s = .next t) :
    (∃ e, checksOf i s.cfg = some e ∧ t = s.raiseError e) ∨ (checksOf i s.cfg = none ∧ t = succeeded i s) :=
  finish_cases (exec_eq_finish i s ▸ h)

/-- A failed range check reports ARG_OUT_OF_RANGE and a field number from 0 to 4. -/
theorem checksOf_some {i : Instr} {cfg : Config} {e : CmdError} (h : checksOf i cfg = some e) :
    e.code = statusArgOutOfRange ∧ e.arg ≤ 4 := by
  have key : ∀ {cs : List (Option CmdError)},
      (∀ c ∈ cs, ∀ e, c = some e → e.code = statusArgOutOfRange ∧ e.arg ≤ 4) →
      firstFailure cs = some e → e.code = statusArgOutOfRange ∧ e.arg ≤ 4 :=
    fun hcs hf => hcs _ (firstFailure_mem hf) e rfl
  have chk : ∀ {b : Nat} {k : BitVec 3} {a : Int} {e : CmdError}, k ≤ 4 → checkRange b k a = some e →
      e.code = statusArgOutOfRange ∧ e.arg ≤ 4 := by
    intro b k a e hk he
    obtain ⟨-, rfl⟩ := checkRange_eq_some.mp he
    exact ⟨rfl, hk⟩
  cases i <;> simp only [checksOf, checkEndpoints, checkX, checkY, checkIndex, checkChannel] at h
  case rdbyte a =>
    unfold checkAddr at h
    split at h
    · cases h
    · cases h; exact ⟨rfl, by decide⟩
  case present => cases h
  all_goals
    refine key ?_ h
    simp only [List.mem_cons, List.not_mem_nil, or_false, forall_eq_or_imp, forall_eq]
    first
      | exact ⟨fun e => chk (by decide), fun e => chk (by decide), fun e => chk (by decide), fun e => chk (by decide), fun e => chk (by decide)⟩
      | exact ⟨fun e => chk (by decide), fun e => chk (by decide), fun e => chk (by decide), fun e => chk (by decide)⟩
      | exact ⟨fun e => chk (by decide), fun e => chk (by decide), fun e => chk (by decide)⟩
      | exact ⟨fun e => chk (by decide), fun e => chk (by decide)⟩
      | exact fun e => chk (by decide)

/-- The run fill keeps the canonical form. -/
theorem wf_fillRun {fb : Memory} (h : fb.wf = true) (p1 p2 : Nat) (c : Index) : (fillRun fb p1 p2 c).wf = true := by
  simp only [fillRun]
  refine Memory.wf_fill _ _ _ ?_
  split <;> split <;> simp only [wf_nibWrite, h]

/-- The row loop keeps the canonical form. -/
theorem wf_fillRows (cfg : Config) (x1 x2 : Int) (c : Index) (n : Nat) : ∀ (y : Int) {fb : Memory}, fb.wf = true →
    (fillRows cfg x1 x2 c n y fb).wf = true := by
  induction n with
  | zero => intro y fb h; exact h
  | succ n ih => intro y fb h; exact ih (y + 1) (wf_fillRun h _ _ c)

/-- Plotting keeps the canonical form. -/
theorem wf_plotAll (cfg : Config) (c : Index) (ps : List Plot) : ∀ {fb : Memory}, fb.wf = true →
    (plotAll cfg c ps fb).wf = true := by
  induction ps with
  | nil => intro fb h; exact h
  | cons p ps ih => intro fb h; exact ih (wf_nibWrite h _ c)

/-- Every command keeps the canonical form of the pixel buffer. -/
theorem wf_drawnFb {i : Instr} {s : State} (h : s.fb.wf = true) : (drawnFb i s).wf = true := by
  cases i
  case pset => exact wf_nibWrite h _ _
  case span => exact wf_fillRun h _ _ _
  case rectfill => exact wf_fillRows _ _ _ _ _ _ h
  case line => exact wf_plotAll _ _ _ h
  all_goals exact h

/-- A step of a reset block whose next input is a word runs that word. -/
theorem step_command {s : State} {w : CmdWord} {rest : List HostInput} (hr : s.wasReset = true)
    (hh : s.host = .command w :: rest) : step s = runWord w (s.accept rest) := by
  unfold step; rw [hh]; exact if_pos hr

/-- A word that decodes to a command runs it. -/
theorem runWord_command {w : CmdWord} {i : Instr} (h : decode w = .command i) (s : State) : runWord w s = exec i s := by
  unfold runWord; rw [h]

/-- A word that decodes to no command raises its error. -/
theorem runWord_illegal {w : CmdWord} {e : Illegal} (h : decode w = .illegal e) (s : State) :
    runWord w s = .next (s.illegalCommand e) := by
  unfold runWord; rw [h]

/-- Everything a step can do: idle, a reset, an illegal word, or a decoded command. -/
theorem step_cases {s t : State} (h : step s = .next t) :
    (s.host = [] ∧ t = s.accept []) ∨
    (∃ pal rest, s.host = .reset pal :: rest ∧ t = (s.accept rest).applyReset pal) ∨
    (∃ w rest e, s.host = .command w :: rest ∧ s.wasReset = true ∧ decode w = .illegal e ∧
      t = (s.accept rest).illegalCommand e) ∨
    (∃ w rest i, s.host = .command w :: rest ∧ s.wasReset = true ∧ decode w = .command i ∧
      exec i (s.accept rest) = .next t) := by
  unfold step at h
  split at h
  · rename_i hh; exact .inl ⟨hh, by simpa using h.symm⟩
  · rename_i pal rest hh; exact .inr (.inl ⟨pal, rest, hh, by simpa using h.symm⟩)
  · rename_i w rest hh
    split at h
    · rename_i hr
      unfold runWord at h
      split at h
      · rename_i i hd; exact .inr (.inr (.inr ⟨w, rest, i, hh, hr, hd, h⟩))
      · rename_i e hd; exact .inr (.inr (.inl ⟨w, rest, e, hh, hr, hd, by simpa using h.symm⟩))
    · cases h

end Sys2Proof.Machine
end

