-- ==== Sys2Proof/Laws/Draw.lean ====
section
/-! SUPPORT. What the three drawing engines do to the pixels of a canonical buffer: the run fill, the row loop and the plots of
a line. -/

namespace Sys2Proof.Machine

/-- Two buffers have the same byte where they have the same two pixels. -/
theorem read_eq_of_nibRead_eq {m m' : Memory} {a : Nat} (h0 : nibRead m (2 * a) = nibRead m' (2 * a))
    (h1 : nibRead m (2 * a + 1) = nibRead m' (2 * a + 1)) : m.read a = m'.read a := by
  rw [read_eq_packByte, read_eq_packByte, h0, h1]

/-- The four bits of a checked index have its value. -/
theorem toNat_indexOf {c : Int} (h : 0 ≤ c ∧ c < 16) : ((indexOf c).toNat : Int) = c := by
  rw [indexOf, BitVec.toNat_ofInt]; omega

/-- The eight bits of a checked channel have its value. -/
theorem toNat_channelOf {v : Int} (h : 0 ≤ v ∧ v < 256) : ((channelOf v).toNat : Int) = v := by
  rw [channelOf, BitVec.toNat_ofInt]; omega

/-- The position of a pixel with nonnegative coordinates, as an integer. -/
theorem pixelPos_eq {c : Config} {x y : Int} (hx : 0 ≤ x) (hy : 0 ≤ y) : (pixelPos c x y : Int) = x + y * c.w := by
  unfold pixelPos; rw [Int.toNat_of_nonneg]; positivity

/-- The run fill sets exactly the pixels of the inclusive run. -/
theorem nibRead_fillRun {fb : Memory} (h : fb.wf = true) (p1 p2 : Nat) (c : Index) (q : Nat) :
    nibRead (fillRun fb p1 p2 c) q = if min p1 p2 ≤ q ∧ q ≤ max p1 p2 then c else nibRead fb q := by
  have hw1 : (if min p1 p2 % 2 = 1 then nibWrite fb (min p1 p2) c else fb).wf = true := by
    split <;> simp only [wf_nibWrite, h]
  have hw2 : (if max p1 p2 % 2 = 0 then
      nibWrite (if min p1 p2 % 2 = 1 then nibWrite fb (min p1 p2) c else fb) (max p1 p2) c
      else (if min p1 p2 % 2 = 1 then nibWrite fb (min p1 p2) c else fb)).wf = true := by
    split <;> simp only [wf_nibWrite, hw1]
  simp only [fillRun]
  rw [nibRead_fill hw2]
  have hle : min p1 p2 ≤ max p1 p2 := by omega
  generalize min p1 p2 = s at *
  generalize max p1 p2 = e at *
  rcases Nat.mod_two_eq_zero_or_one s with hs | hs <;> rcases Nat.mod_two_eq_zero_or_one e with he | he <;>
    simp only [hs, he, if_true, if_false, one_ne_zero, zero_ne_one] at hw1 hw2 ⊢
  · rw [nibRead_nibWrite_eq h]
    by_cases hr : s ≤ q ∧ q ≤ e
    · rw [if_pos hr]
      by_cases hq : q = e
      · rw [if_pos hq, ite_self]
      · rw [if_pos (by omega)]
    · rw [if_neg hr, if_neg (by omega), if_neg (by omega)]
  · congr 1
    exact propext (by omega)
  · rw [nibRead_nibWrite_eq hw1, nibRead_nibWrite_eq h]
    by_cases hr : s ≤ q ∧ q ≤ e
    · rw [if_pos hr]
      by_cases hq : q = e
      · rw [if_pos hq, ite_self]
      · by_cases hq' : q = s
        · rw [if_pos hq', ite_self, ite_self]
        · rw [if_pos (by omega)]
    · rw [if_neg hr, if_neg (by omega), if_neg (by omega), if_neg (by omega)]
  · rw [nibRead_nibWrite_eq h]
    by_cases hr : s ≤ q ∧ q ≤ e
    · rw [if_pos hr]
      by_cases hq : q = s
      · rw [if_pos hq, ite_self]
      · rw [if_pos (by omega)]
    · rw [if_neg hr, if_neg (by omega), if_neg (by omega)]

open Classical in
/-- The row loop sets exactly the pixels of its rows' runs. -/
theorem nibRead_fillRows (cfg : Config) (x1 x2 : Int) (c : Index) (n : Nat) : ∀ (y : Int) {fb : Memory},
    fb.wf = true → ∀ q, nibRead (fillRows cfg x1 x2 c n y fb) q =
      if ∃ y', y ≤ y' ∧ y' < y + n ∧ min (pixelPos cfg x1 y') (pixelPos cfg x2 y') ≤ q ∧
        q ≤ max (pixelPos cfg x1 y') (pixelPos cfg x2 y') then c else nibRead fb q := by
  induction n with
  | zero =>
    intro y fb h q
    rw [if_neg (by rintro ⟨y', a, b, _⟩; simp only [Nat.cast_zero] at b; omega)]
    rfl
  | succ n ih =>
    intro y fb h q
    rw [fillRows, ih (y + 1) (wf_fillRun h _ _ _), nibRead_fillRun h]
    by_cases h1 : ∃ y', y + 1 ≤ y' ∧ y' < y + 1 + n ∧ min (pixelPos cfg x1 y') (pixelPos cfg x2 y') ≤ q ∧
        q ≤ max (pixelPos cfg x1 y') (pixelPos cfg x2 y')
    · rw [if_pos h1, if_pos]
      obtain ⟨y', a, b, d⟩ := h1
      exact ⟨y', by omega, by push_cast; omega, d⟩
    · rw [if_neg h1]
      by_cases h2 : min (pixelPos cfg x1 y) (pixelPos cfg x2 y) ≤ q ∧
          q ≤ max (pixelPos cfg x1 y) (pixelPos cfg x2 y)
      · rw [if_pos h2, if_pos ⟨y, by omega, by push_cast; omega, h2⟩]
      · rw [if_neg h2, if_neg]
        rintro ⟨y', a, b, d⟩
        by_cases hy : y' = y
        · subst hy; exact h2 d
        · exact h1 ⟨y', by omega, by push_cast at b; omega, d⟩

/-- Plotting sets exactly the plotted points. -/
theorem nibRead_plotAll (cfg : Config) (c : Index) (ps : List Plot) : ∀ {fb : Memory}, fb.wf = true → ∀ q,
    nibRead (plotAll cfg c ps fb) q =
      if q ∈ ps.map (fun p => pixelPos cfg p.x p.y) then c else nibRead fb q := by
  induction ps with
  | nil => intro fb h q; rfl
  | cons p ps ih =>
    intro fb h q
    have step := ih (wf_nibWrite h (pixelPos cfg p.x p.y) c) q
    simp only [plotAll, List.foldl_cons] at step ⊢
    rw [step, nibRead_nibWrite_eq h]
    by_cases h1 : q ∈ ps.map (fun p => pixelPos cfg p.x p.y) <;> by_cases h2 : q = pixelPos cfg p.x p.y <;>
      simp [h1, h2]

end Sys2Proof.Machine
end

