-- ==== Sys2Proof/Laws/Line.lean ====
section
/-! SUPPORT. The Bresenham loop: one iteration, and, from any point of a segment whose error term is that of its remaining
steps, that the loop reaches the end point within `max r t` iterations that step, inside the remaining box. It says that the
bound on the iterations never runs out (log entry 9). -/

namespace Sys2Proof.Machine

/-- The plot after one iteration of R162 that steps. -/
def nextPlot (dx dy sx sy : Int) (p : Plot) : Plot :=
  { x := if 2 * p.err ≥ dy then p.x + sx else p.x
    y := if 2 * p.err ≤ dx then p.y + sy else p.y
    err := p.err + (if 2 * p.err ≥ dy then dy else 0) + (if 2 * p.err ≤ dx then dx else 0) }

/-- One iteration of the loop. -/
theorem bresenhamLoop_succ (x2 y2 dx dy sx sy : Int) (n : Nat) (p : Plot) :
    bresenhamLoop x2 y2 dx dy sx sy (n + 1) p =
      if p.x = x2 ∧ p.y = y2 then [p]
      else p :: bresenhamLoop x2 y2 dx dy sx sy n (nextPlot dx dy sx sy p) := by
  simp only [bresenhamLoop, nextPlot]
  congr 2
  split <;> split <;> simp

/-- `r` steps in x and `t` steps in y remain of a segment with `a` and `b` in all: the deviation `r * b - t * a` from the
ideal line is at most half a step of the major axis, and the minor axis never has more steps left than the major one. -/
structure Remaining (a b r t : Int) : Prop where
  x_nonneg : 0 ≤ r
  y_nonneg : 0 ≤ t
  x_le : r ≤ a
  y_le : t ≤ b
  dev_ge : -(max a b) ≤ 2 * (r * b - t * a)
  dev_le : 2 * (r * b - t * a) ≤ max a b
  x_major : b ≤ a → t ≤ r
  y_major : a ≤ b → r ≤ t

/-- One iteration keeps that and shortens the longer of the two remainders by one. -/
theorem Remaining.next {a b r t err : Int} (ha : 0 ≤ a) (hb : 0 ≤ b) (h : Remaining a b r t) (hrt : 0 < max r t)
    (he : err = a - b + r * b - t * a) :
    Remaining a b (if 2 * err ≥ -b then r - 1 else r) (if 2 * err ≤ a then t - 1 else t) ∧
      max (if 2 * err ≥ -b then r - 1 else r) (if 2 * err ≤ a then t - 1 else t) = max r t - 1 := by
  obtain ⟨h1, h3, h2, h4, h9, h10, h11, h12⟩ := h
  rcases le_total b a with hba | hba
  · have htr := h11 hba
    have hr1 : 1 ≤ r := by omega
    rw [max_eq_left hba] at h9 h10
    have hX : 2 * err ≥ -b := by omega
    rw [if_pos hX]
    by_cases hY : 2 * err ≤ a
    · rw [if_pos hY]
      have ht1 : 1 ≤ t := by
        by_contra hh
        obtain rfl : t = 0 := by omega
        nlinarith
      refine ⟨⟨by omega, by omega, by omega, by omega, ?_, ?_, by omega, fun hab => ?_⟩, by omega⟩
      · rw [max_eq_left hba]; nlinarith
      · rw [max_eq_left hba]; nlinarith
      · have := h12 hab; omega
    · rw [if_neg hY]
      have htr' : t ≤ r - 1 := by
        by_contra hh
        obtain rfl : t = r := by omega
        nlinarith
      refine ⟨⟨by omega, by omega, by omega, by omega, ?_, ?_, fun _ => htr', fun hab => ?_⟩, by omega⟩
      · rw [max_eq_left hba]; nlinarith
      · rw [max_eq_left hba]; nlinarith
      · have := h12 hab; omega
  · have htr := h12 hba
    have ht1 : 1 ≤ t := by omega
    rw [max_eq_right hba] at h9 h10
    have hY : 2 * err ≤ a := by omega
    rw [if_pos hY]
    by_cases hX : 2 * err ≥ -b
    · rw [if_pos hX]
      have hr1 : 1 ≤ r := by
        by_contra hh
        obtain rfl : r = 0 := by omega
        nlinarith
      refine ⟨⟨by omega, by omega, by omega, by omega, ?_, ?_, fun hab => ?_, by omega⟩, by omega⟩
      · rw [max_eq_right hba]; nlinarith
      · rw [max_eq_right hba]; nlinarith
      · have := h11 hab; omega
    · rw [if_neg hX]
      have htr' : r ≤ t - 1 := by
        by_contra hh
        obtain rfl : t = r := by omega
        nlinarith
      refine ⟨⟨by omega, by omega, by omega, by omega, ?_, ?_, fun hab => ?_, fun _ => htr'⟩, by omega⟩
      · rw [max_eq_right hba]; nlinarith
      · rw [max_eq_right hba]; nlinarith
      · have := h11 hab; omega

/-- What the loop plots from `p` when `r` steps in x and `t` steps in y remain to the end point. -/
structure SegmentPlots (a b x2 y2 sx sy r t : Int) (p : Plot) (ps : List Plot) : Prop where
  /-- It takes `max r t` iterations that step. -/
  length : (ps.length : Int) = max r t + 1
  head : ps.head? = some p
  last : (ps.getLast?.map fun p => (p.x, p.y)) = some (x2, y2)
  /-- Every plot lies in the remaining box, with a bounded error term. -/
  box : ∀ q ∈ ps, (∃ i, 0 ≤ i ∧ i ≤ r ∧ q.x = p.x + sx * i) ∧ (∃ j, 0 ≤ j ∧ j ≤ t ∧ q.y = p.y + sy * j) ∧
    -2 * b ≤ q.err ∧ q.err ≤ 2 * a
  nodup : (ps.map fun p => (p.x, p.y)).Nodup
  /-- Each plot follows from the one before by one iteration; only the end point has no successor. -/
  step : ∀ (k : Nat) (q : Plot), ps[k]? = some q →
    if q.x = x2 ∧ q.y = y2 then ps.length = k + 1 else ps[k + 1]? = some (nextPlot a (-b) sx sy q)
  adjacent : ∀ (k : Nat) (q q' : Plot), ps[k]? = some q → ps[k + 1]? = some q' →
    |q'.x - q.x| ≤ 1 ∧ |q'.y - q.y| ≤ 1 ∧ (q'.x, q'.y) ≠ (q.x, q.y)

/-- The end point alone is the plots of an empty remainder. -/
theorem segmentPlots_end {a b x2 y2 sx sy : Int} {p : Plot} (ha : 0 ≤ a) (hb : 0 ≤ b) (hx : p.x = x2) (hy : p.y = y2)
    (he : p.err = a - b) : SegmentPlots a b x2 y2 sx sy 0 0 p [p] := by
  refine ⟨by simp, rfl, by simp [hx, hy], ?_, by simp, ?_, ?_⟩
  · intro q hq
    obtain rfl : q = p := by simpa using hq
    exact ⟨⟨0, by omega, by omega, by ring⟩, ⟨0, by omega, by omega, by ring⟩, by omega, by omega⟩
  · intro k q hq
    cases k with
    | zero =>
      obtain rfl : p = q := by simpa using hq
      rw [if_pos ⟨hx, hy⟩]; rfl
    | succ k => simp at hq
  · intro k q q' _ hq'
    simp at hq'

/-- A step in front of the plots of the shorter remainder. -/
theorem segmentPlots_cons {a b x2 y2 sx sy r t r' t' : Int} {p : Plot} {ps : List Plot}
    (hsx : sx = 1 ∨ sx = -1) (hsy : sy = 1 ∨ sy = -1) (hne : ¬(p.x = x2 ∧ p.y = y2))
    (herr : -2 * b ≤ p.err ∧ p.err ≤ 2 * a) (hr : 0 ≤ r' ∧ r' ≤ r ∧ r - 1 ≤ r') (ht : 0 ≤ t' ∧ t' ≤ t ∧ t - 1 ≤ t')
    (hmax : max r' t' = max r t - 1)
    (px : (nextPlot a (-b) sx sy p).x = p.x + sx * (r - r')) (py : (nextPlot a (-b) sx sy p).y = p.y + sy * (t - t'))
    (g : SegmentPlots a b x2 y2 sx sy r' t' (nextPlot a (-b) sx sy p) ps) :
    SegmentPlots a b x2 y2 sx sy r t p (p :: ps) := by
  obtain ⟨x, xs, rfl⟩ : ∃ x xs, ps = x :: xs := by
    cases ps with
    | nil => have := g.head; simp at this
    | cons x xs => exact ⟨x, xs, rfl⟩
  have hx : x = nextPlot a (-b) sx sy p := by simpa using g.head
  refine ⟨?_, rfl, ?_, ?_, ?_, ?_, ?_⟩
  · have := g.length
    rw [List.length_cons]; push_cast; omega
  · rw [List.getLast?_cons_cons]; exact g.last
  · intro q hq
    rcases List.mem_cons.mp hq with rfl | hq
    · exact ⟨⟨0, by omega, by omega, by ring⟩, ⟨0, by omega, by omega, by ring⟩, herr⟩
    · obtain ⟨⟨i, i1, i2, i3⟩, ⟨j, j1, j2, j3⟩, e⟩ := g.box q hq
      refine ⟨⟨i + (r - r'), by omega, by omega, ?_⟩, ⟨j + (t - t'), by omega, by omega, ?_⟩, e⟩
      · rw [i3, px]; ring
      · rw [j3, py]; ring
  · rw [List.map_cons, List.nodup_cons]
    refine ⟨fun hm => ?_, g.nodup⟩
    obtain ⟨q, hq, e⟩ := List.mem_map.mp hm
    obtain ⟨⟨i, i1, i2, i3⟩, ⟨j, j1, j2, j3⟩, -⟩ := g.box q hq
    simp only [Prod.mk.injEq] at e
    rw [i3, j3, px, py] at e
    have k1 : r - r' + i = 0 := by rcases hsx with rfl | rfl <;> omega
    have k2 : t - t' + j = 0 := by rcases hsy with rfl | rfl <;> omega
    omega
  · intro k q hq
    cases k with
    | zero =>
      obtain rfl : p = q := by simpa using hq
      rw [if_neg hne, hx]; rfl
    | succ k =>
      simp only [List.getElem?_cons_succ] at hq ⊢
      have := g.step k q hq
      split at this
      · rw [if_pos (by assumption), List.length_cons]; omega
      · rw [if_neg (by assumption)]; exact this
  · intro k q q' hq hq'
    cases k with
    | zero =>
      obtain rfl : p = q := by simpa using hq
      obtain rfl : x = q' := by simpa using hq'
      rw [hx, px, py]
      refine ⟨?_, ?_, fun e => ?_⟩
      · rcases hsx with rfl | rfl <;> rw [abs_le] <;> constructor <;> omega
      · rcases hsy with rfl | rfl <;> rw [abs_le] <;> constructor <;> omega
      · simp only [Prod.mk.injEq] at e
        have k1 : r = r' := by rcases hsx with rfl | rfl <;> omega
        have k2 : t = t' := by rcases hsy with rfl | rfl <;> omega
        omega
    | succ k =>
      simp only [List.getElem?_cons_succ] at hq hq'
      exact g.adjacent k q q' hq hq'

/-- The loop plots the remaining segment, for every bound on its iterations that is at least `max r t`. -/
theorem segmentPlots_bresenhamLoop {a b x2 y2 sx sy : Int} (ha : 0 ≤ a) (hb : 0 ≤ b) (hsx : sx = 1 ∨ sx = -1)
    (hsy : sy = 1 ∨ sy = -1) : ∀ (n : Nat) (r t : Int) (p : Plot), Remaining a b r t → max r t ≤ n →
    x2 = p.x + sx * r → y2 = p.y + sy * t → p.err = a - b + r * b - t * a →
    SegmentPlots a b x2 y2 sx sy r t p (bresenhamLoop x2 y2 a (-b) sx sy n p) := by
  have ended : ∀ {r t : Int} {p : Plot}, Remaining a b r t → x2 = p.x + sx * r → y2 = p.y + sy * t →
      p.err = a - b + r * b - t * a → p.x = x2 ∧ p.y = y2 → SegmentPlots a b x2 y2 sx sy r t p [p] := by
    intro r t p h h6 h7 h8 he
    obtain rfl : r = 0 := by rcases hsx with rfl | rfl <;> omega
    obtain rfl : t = 0 := by rcases hsy with rfl | rfl <;> omega
    exact segmentPlots_end ha hb he.1 he.2 (by rw [h8]; ring)
  intro n
  induction n with
  | zero =>
    intro r t p h h5 h6 h7 h8
    have h1 := h.x_nonneg
    have h3 := h.y_nonneg
    obtain rfl : r = 0 := by push_cast at h5; omega
    obtain rfl : t = 0 := by push_cast at h5; omega
    exact ended h h6 h7 h8 ⟨by rw [h6]; ring, by rw [h7]; ring⟩
  | succ n ih =>
    intro r t p h h5 h6 h7 h8
    rw [bresenhamLoop_succ]
    by_cases he : p.x = x2 ∧ p.y = y2
    · rw [if_pos he]; exact ended h h6 h7 h8 he
    · rw [if_neg he]
      have h1 := h.x_nonneg
      have h3 := h.y_nonneg
      have hrt : 0 < max r t := by
        by_contra hh
        obtain rfl : r = 0 := by omega
        obtain rfl : t = 0 := by omega
        exact he ⟨by rw [h6]; ring, by rw [h7]; ring⟩
      obtain ⟨hn, hmax⟩ := h.next ha hb hrt h8
      have px : (nextPlot a (-b) sx sy p).x = p.x + sx * (r - if 2 * p.err ≥ -b then r - 1 else r) := by
        simp only [nextPlot]; split <;> ring
      have py : (nextPlot a (-b) sx sy p).y = p.y + sy * (t - if 2 * p.err ≤ a then t - 1 else t) := by
        simp only [nextPlot]; split <;> ring
      have pe : (nextPlot a (-b) sx sy p).err =
          a - b + (if 2 * p.err ≥ -b then r - 1 else r) * b - (if 2 * p.err ≤ a then t - 1 else t) * a := by
        simp only [nextPlot]; split <;> split <;> rw [h8] <;> ring
      have rr : (if 2 * p.err ≥ -b then r - 1 else r) ≤ r ∧ r - 1 ≤ (if 2 * p.err ≥ -b then r - 1 else r) := by
        split <;> omega
      have tt : (if 2 * p.err ≤ a then t - 1 else t) ≤ t ∧ t - 1 ≤ (if 2 * p.err ≤ a then t - 1 else t) := by
        split <;> omega
      have herr : -2 * b ≤ p.err ∧ p.err ≤ 2 * a := by
        have h9 := h.dev_ge
        have h10 := h.dev_le
        omega
      refine segmentPlots_cons hsx hsy he herr ⟨hn.x_nonneg, rr⟩ ⟨hn.y_nonneg, tt⟩ hmax px py ?_
      exact ih _ _ _ hn (by push_cast at h5; omega) (by rw [px, h6]; ring) (by rw [py, h7]; ring) pe

end Sys2Proof.Machine
end

