-- ==== Sys2Proof/Laws/PerInstr.lean ====
section
/-! SUPPORT. What holds of every command as syntax, one lemma per constructor: its word carries its opcode, its arguments'
fields and zeros in its reserved fields. -/

namespace Sys2Proof.Laws.EncodedFields

/-- The word of a command has its opcode, reads back its raw fields, and is zero in every reserved field. -/
def Statement (i : Instr) : Prop :=
  opField (encode i) = i.opcode ∧
  (argField (encode i) 0, argField (encode i) 1, argField (encode i) 2, argField (encode i) 3,
    argField (encode i) 4) = i.fields ∧
  ∀ k ∈ reservedFields i.opcode, argField (encode i) k = 0

theorem pset (x y c : Int) : Statement (.pset x y c) := by
  simp [Statement, encode, Instr.opcode, Instr.fields, reservedFields]

theorem span (x1 y1 x2 y2 c : Int) : Statement (.span x1 y1 x2 y2 c) := by
  simp [Statement, encode, Instr.opcode, Instr.fields, reservedFields]

theorem rectfill (x1 y1 x2 y2 c : Int) : Statement (.rectfill x1 y1 x2 y2 c) := by
  simp [Statement, encode, Instr.opcode, Instr.fields, reservedFields]

theorem line (x1 y1 x2 y2 c : Int) : Statement (.line x1 y1 x2 y2 c) := by
  simp [Statement, encode, Instr.opcode, Instr.fields, reservedFields]

theorem cset (c r g b : Int) : Statement (.cset c r g b) := by
  simp [Statement, encode, Instr.opcode, Instr.fields, reservedFields]

theorem pget (x y : Int) : Statement (.pget x y) := by
  simp [Statement, encode, Instr.opcode, Instr.fields, reservedFields]

theorem getcolor (c : Int) : Statement (.getcolor c) := by
  simp [Statement, encode, Instr.opcode, Instr.fields, reservedFields]

theorem rdbyte (a : Nat) : Statement (.rdbyte a) := by
  simp [Statement, encode, Instr.opcode, Instr.fields, reservedFields]

theorem present : Statement .present := by
  simp [Statement, encode, Instr.opcode, Instr.fields, reservedFields]

end Sys2Proof.Laws.EncodedFields
end

