-- ==== Sys2Proof/Tests/Slice0.lean ====
section
/-! SUPPORT. Tests: the well-formedness checks refuse ill-formed commands, words written out from the encoding decode to the
commands they stand for, one step of each command gives the spec's own worked results (spec/95_test_vectors.md, the vector is
named beside each), and for each statement with hypotheses a witness meets them all. -/

namespace Sys2Proof.Tests

open Sys2Proof Sys2Proof.Machine

/-- The test palette of V5: entry 0 black, every other entry white. -/
def testPal : Palette := (Vector.replicate 16 ⟨255, 255, 255⟩).set 0 ⟨0, 0, 0⟩

/-- A reset block of the given size with the given pixel bytes and host inputs. -/
def block (w h : Nat) (fb : Memory) (host : List HostInput) : State :=
  { State.afterReset ⟨w, h⟩ testPal host with fb := fb }

/-- The state after an outcome that has one. -/
def after : Host.Outcome State Fault Refusal → Option State
  | .next s => some s
  | _ => none

/-- The pixel bytes and the response after one command word. -/
def run1 (w h : Nat) (fb : Memory) (word : CmdWord) : Option (Memory × BitVec 8 × BitVec 3 × BitVec 32) :=
  (after (step (block w h fb [.command word]))).map fun s => (s.fb, s.response)

/-! ## Well-formedness: an ill-formed term for each check -/

theorem test_wf_refuses_pset : Instr.wf (.pset 2048 0 0) = false ∧ Instr.wf (.pset 0 (-2049) 0) = false ∧
    Instr.wf (.pset 0 0 2048) = false := by decide
theorem test_wf_refuses_span : Instr.wf (.span 2048 0 0 0 0) = false ∧ Instr.wf (.span 0 2048 0 0 0) = false ∧
    Instr.wf (.span 0 0 2048 0 0) = false ∧ Instr.wf (.span 0 0 0 2048 0) = false ∧
    Instr.wf (.span 0 0 0 0 2048) = false := by decide
theorem test_wf_refuses_rectfill : Instr.wf (.rectfill 2048 0 0 0 0) = false ∧
    Instr.wf (.rectfill 0 2048 0 0 0) = false ∧ Instr.wf (.rectfill 0 0 2048 0 0) = false ∧
    Instr.wf (.rectfill 0 0 0 2048 0) = false ∧ Instr.wf (.rectfill 0 0 0 0 2048) = false := by decide
theorem test_wf_refuses_line : Instr.wf (.line (-2049) 0 0 0 0) = false ∧ Instr.wf (.line 0 2048 0 0 0) = false ∧
    Instr.wf (.line 0 0 2048 0 0) = false ∧ Instr.wf (.line 0 0 0 2048 0) = false ∧
    Instr.wf (.line 0 0 0 0 2048) = false := by decide
theorem test_wf_refuses_cset : Instr.wf (.cset 2048 0 0 0) = false ∧ Instr.wf (.cset 0 2048 0 0) = false ∧
    Instr.wf (.cset 0 0 2048 0) = false ∧ Instr.wf (.cset 0 0 0 2048) = false := by decide
theorem test_wf_refuses_pget : Instr.wf (.pget 2048 0) = false ∧ Instr.wf (.pget 0 2048) = false := by decide
theorem test_wf_refuses_getcolor : Instr.wf (.getcolor (-2049)) = false := by decide
theorem test_wf_refuses_rdbyte : Instr.wf (.rdbyte 16777216) = false := by decide

/-! ## Decoding: words written out from R70, R72 and R75 -/

/-- `op a0 a1 a2 a3 a4` laid out as 4 + 5 x 12 bits. -/
theorem test_decode_pset :
    decode 0b0001_000000000011_000000000100_000000000111_000000000000_000000000000 = .command (.pset 3 4 7) := by decide
theorem test_decode_span :
    decode 0b0010_000000000000_000000000101_000001111111_000000000101_000000000110 = .command (.span 0 5 127 5 6) := by
  decide
theorem test_decode_rectfill :
    decode 0b0011_111111111111_000000000000_000000000011_000000000011_000000000001 =
      .command (.rectfill (-1) 0 3 3 1) := by decide
theorem test_decode_line :
    decode 0b0100_111111111111_000011001000_000000000101_000000000101_000001100011 =
      .command (.line (-1) 200 5 5 99) := by decide
theorem test_decode_cset :
    decode 0b0101_000000000000_000100000000_111111111111_000100101100_000000000000 =
      .command (.cset 0 256 (-1) 300) := by decide
theorem test_decode_pget :
    decode 0b0110_000001111111_100000000000_000000000000_000000000000_000000000000 =
      .command (.pget 127 (-2048)) := by decide
theorem test_decode_getcolor :
    decode 0b0111_000000001111_000000000000_000000000000_000000000000_000000000000 = .command (.getcolor 15) := by decide
theorem test_decode_rdbyte :
    decode 0b1000_111111111111_100000000001_000000000000_000000000000_000000000000 =
      .command (.rdbyte (0x801 * 4096 + 0xFFF)) := by decide
theorem test_decode_present : decode 0x9000000000000000 = .command .present := by decide
/-- V0: reserved fields and opcodes that are illegal. -/
theorem test_decode_illegal : decode 0x5000000000000800 = .illegal (.reserved 4) ∧
    decode 0x9001000000000000 = .illegal (.reserved 0) ∧ decode 0xFFFFFFFFFFFFFFFF = .illegal .opcode := by decide
theorem test_decodeTableWord : decodeTableWord 64 0x6003000000000000 = some (.pget 3 0) ∧
    decodeTableWord 64 0xA000000000000000 = none := by decide

/-! ## One step of each command -/

/-- V1: `pset(1, 0, 5)` over `FB[0] = 0x0A` keeps the low nibble. -/
theorem test_pset_keeps_neighbour : run1 128 128 [(0, 0x0A)] 0x1001000005000000 = some ([(0, 0x5A)], 0, 0, 0) := by decide
/-- V1: `pset(4, 2, 7)` at 5x3 writes the low nibble of the last byte. -/
theorem test_pset_last_pixel : run1 5 3 [] 0x1004002007000000 = some ([(7, 0x07)], 0, 0, 0) := by decide
/-- W1: `pget(3, 0)` and `pget(2, 0)` with `FB[1] = 0x75`. -/
theorem test_pget : run1 128 128 [(1, 0x75)] 0x6003000000000000 = some ([(1, 0x75)], 0, 0, 7) ∧
    run1 128 128 [(1, 0x75)] 0x6002000000000000 = some ([(1, 0x75)], 0, 0, 5) := by decide
/-- V0, V1: `rdbyte(1)`, and `rdbyte(8)` at 5x3 (8 bytes) fails. -/
theorem test_rdbyte : run1 128 128 [(1, 0x75)] 0x8001000000000000 = some ([(1, 0x75)], 0, 0, 0x75) ∧
    run1 5 3 [] 0x8008000000000000 = some ([], 1, 0, 0) := by decide
/-- V2: `span(1, 0, 6, 0, 9)`, all three paths. -/
theorem test_span_three_paths : run1 128 128 [] 0x2001000006000009 =
    some ([(0, 0x90), (1, 0x99), (2, 0x99), (3, 0x09)], 0, 0, 0) := by decide
/-- V2: `span(1, 0, 2, 0, 12)` between two pixels that stay. -/
theorem test_span_keeps_both_sides : run1 128 128 [(0, 0x03), (1, 0x30)] 0x200100000200000C =
    some ([(0, 0xC3), (1, 0x3C)], 0, 0, 0) := by decide
/-- V3: `rectfill(4, 2, 1, 1, 7)` at 8x4, both axes reversed. -/
theorem test_rectfill_reversed : run1 8 4 [] 0x3004002001001007 =
    some ([(4, 0x70), (5, 0x77), (6, 0x07), (8, 0x70), (9, 0x77), (10, 0x07)], 0, 0, 0) := by decide
/-- V3: `rectfill(1, 0, 3, 2, 2)` at 5x3: rows that start in the middle of a byte. -/
theorem test_rectfill_odd_width : run1 5 3 [] 0x3001000003002002 =
    some ([(0, 0x20), (1, 0x22), (3, 0x22), (4, 0x02), (5, 0x20), (6, 0x22)], 0, 0, 0) := by decide
/-- V4: the points and error terms of `line(4, 0, 0, 3, 1)`. -/
theorem test_line_points : bresenham 4 0 0 3 =
    [⟨4, 0, 1⟩, ⟨3, 1, 2⟩, ⟨2, 2, 3⟩, ⟨1, 2, 0⟩, ⟨0, 3, 1⟩] := by decide
/-- W4: `line(0, 0, 4, 4, 1)` at 16x16. -/
theorem test_line : run1 16 16 [] 0x4000000004004001 =
    some ([(0, 0x01), (8, 0x10), (17, 0x01), (25, 0x10), (34, 0x01)], 0, 0, 0) := by decide
/-- V5: `cset(5, 1, 2, 3)`. -/
theorem test_cset : (after (step (block 3 2 [] [.command 0x5005001002003000]))).map (fun s => (s.pal[5], s.pal[4])) =
    some (⟨1, 2, 3⟩, ⟨255, 255, 255⟩) := by decide
/-- V7: `cset(0, 256, -1, 300)` reports r first. -/
theorem test_cset_range : run1 128 128 [] 0x5000100FFF12C000 = some ([], 1, 1, 0) := by decide
/-- V5: `getcolor(1)`, `getcolor(16)`. -/
theorem test_getcolor : run1 128 128 [] 0x7001000000000000 = some ([], 0, 0, 0xFFFFFF) ∧
    run1 128 128 [] 0x7010000000000000 = some ([], 1, 0, 0) := by decide
/-- V6: the frame of `pset(1, 0, 1); present()` at 2x1. -/
theorem test_present : (after (step (block 2 1 [(0, 0x10)] [.command 0x9000000000000000]))).map
    (fun s => (s.frameOut, s.response)) = some (some [0x000000, 0xFFFFFF], 0, 0, 0) := by decide
/-- V6: PRESENT with a4 = 1 emits nothing. -/
theorem test_present_reserved : (after (step (block 3 2 [] [.command 0x9000000000000001]))).map
    (fun s => (s.frameOut, s.response)) = some (none, 2, 4, 0) := by decide
/-- V7: `line(5, 200, 5, 5, 99)` reports y1. -/
theorem test_check_order : run1 128 128 [(0, 0x05)] 0x40050C8005005063 = some ([(0, 0x05)], 1, 1, 0) := by decide
/-- V0: the all-zero word. -/
theorem test_zero_word : run1 128 128 [] 0 = some ([], 2, 7, 0) := by decide
/-- R30, R250: the reset input. -/
theorem test_reset_input : (after (step (block 2 1 [(0, 0x10)] [.reset (Vector.replicate 16 ⟨1, 2, 3⟩)]))).map
    (fun s => (s.fb, s.pal[0], s.response)) = some ([], ⟨1, 2, 3⟩, 0, 0, 0) := by decide
/-- The state the host's questions start from: the word is run as the first step after reset. -/
theorem test_withFetchWord : (after (step (State.reset.withFetchWord 64 0x1003000007000000))).map
    (fun s => (s.fb, s.response, s.host)) = some ([(1, 0x70)], (0, 0, 0), []) := by decide

/-! ## Witnesses: concrete states and operands that meet every hypothesis of each statement -/

/-- A canonical buffer for the witnesses. -/
def fb0 : Memory := [(0, 0x21), (2, 0x40)]

theorem fb0_wf : fb0.wf = true := by decide

/-- A 5 x 3 block, one with an odd pixel count. -/
def s53 : State := block 5 3 fb0 []

theorem witness_DecodingAnEncodedCommandGivesItBack :
    Instr.wf (.pset (-2048) 2047 0) = true ∧ Instr.wf (.rdbyte 16777215) = true := by decide
theorem witness_EncodingADecodedWordGivesItBack : decode 0x1FFF000000000000 = .command (.pset (-1) 0 0) := by decide
theorem witness_EncodedWordIsTheSumOfItsFields :
    Instr.wf (.line (-2048) 2047 0 1 (-1)) = true ∧ Instr.wf (.rdbyte 16777215) = true := by decide
theorem witness_WordIsACommandExactlyWhenItsRowMatches :
    (decodeTable.all fun row => row.2.1 &&& row.2.2 == row.2.1) = true ∧
    decode 0x1000000000001000 = .illegal (.reserved 3) := ⟨rfl, by decide⟩
theorem witness_DecodedArgumentsAreSignExtendedFields :
    decode 0x18007FF000000000 = .command (.pset (-2048) 2047 0) := by decide
theorem witness_RdbyteAddressIsTheTwoRawFields :
    decode 0x8FFFFFF000000000 = .command (.rdbyte 16777215) ∧ decode 0x8000000000000000 = .command (.rdbyte 0) := by decide
theorem witness_IllegalOpcodesReportSeven :
    (block 5 3 fb0 [.command 0x0FFFFFFFFFFFFFFF]).wasReset = true ∧ opField 0x0FFFFFFFFFFFFFFF = 0 ∧
    10 ≤ (opField 0xA000000000000000).toNat ∧ 10 ≤ (opField 0xFFFFFFFFFFFFFFFF).toNat ∧
    decode 0x9000000000000000 = .command .present := by decide
theorem witness_NonzeroReservedFieldReportsTheLowest :
    (block 5 3 fb0 [.command 0x1FFF000000002001]).wasReset = true ∧
    ((3 : Fin 5) ∈ reservedFields (opField 0x1FFF000000002001) ∧ argField 0x1FFF000000002001 3 ≠ 0) ∧
    (∀ j ∈ reservedFields 1, j < 3 → argField 0x1FFF000000002001 j = 0) ∧
    opField 0x1FFF000000002001 = 1 :=
  ⟨rfl, ⟨by decide, by decide⟩, by decide, by decide⟩
theorem witness_reserved_field_of_cset :
    (4 : Fin 5) ∈ reservedFields (opField 0x5000000000000800) ∧ argField 0x5000000000000800 4 ≠ 0 :=
  ⟨by decide, by decide⟩
/-- The last field of a two-endpoint command at its bound, and the first field just below 0. -/
theorem witness_FirstArgumentOutOfRangeIsReported :
    (argBounds s53.cfg (.line 0 2 4 0 16) = [⟨0, 0, 5⟩, ⟨1, 2, 3⟩, ⟨2, 4, 5⟩, ⟨3, 0, 3⟩] ++ ⟨4, 16, 16⟩ :: [] ∧
      (∀ b ∈ [(⟨0, 0, 5⟩ : ArgBound), ⟨1, 2, 3⟩, ⟨2, 4, 5⟩, ⟨3, 0, 3⟩], b.InRange) ∧
      ¬(⟨4, 16, 16⟩ : ArgBound).InRange) ∧
    (argBounds s53.cfg (.cset (-1) 256 0 0) = [] ++ ⟨0, -1, 16⟩ :: [⟨1, 256, 256⟩, ⟨2, 0, 256⟩, ⟨3, 0, 256⟩] ∧
      ¬(⟨0, -1, 16⟩ : ArgBound).InRange) ∧
    (argBounds s53.cfg (.rdbyte 8) = [] ++ ⟨0, 8, 8⟩ :: [] ∧ ¬(⟨0, 8, 8⟩ : ArgBound).InRange) := by decide
theorem witness_FailedCommandChangesOnlyTheResponse :
    ∃ t, step (block 5 3 fb0 [.command 0x1005000001000000]) = .next t ∧ t.status ≠ 0 := ⟨_, rfl, by decide⟩
theorem witness_EveryCommandWritesALegalResponse :
    (∃ t, step (block 5 3 fb0 [.command 0x6004002000000000]) = .next t ∧ t.status = 0) ∧
    (∃ t, step (block 5 3 fb0 [.command 0x6005002000000000]) = .next t ∧ t.status = 1) ∧
    (∃ t, step (block 5 3 fb0 [.command 0]) = .next t ∧ t.status = 2) :=
  ⟨⟨_, rfl, by decide⟩, ⟨_, rfl, by decide⟩, ⟨_, rfl, by decide⟩⟩
theorem witness_OutcomeIgnoresTheEarlierResponse :
    (block 5 3 fb0 [.command 0x6004002000000000]).host = [.command 0x6004002000000000] := rfl
theorem witness_StepRunsTheDecodedCommand :
    (block 5 3 fb0 [.command 0x6004002000000000]).wasReset = true ∧
    decode 0x6004002000000000 = .command (.pget 4 2) := by decide
theorem witness_StepWithoutInputHoldsTheState : s53.host = [] := rfl
theorem witness_ResetInputSetsEveryElement : (block 5 3 fb0 [.reset testPal]).host = [.reset testPal] := rfl
theorem witness_CommandBeforeTheFirstResetHasNoStep :
    ({ block 5 3 fb0 [.command 0x9000000000000000] with wasReset := false } : State).wasReset = false := rfl
theorem witness_EveryStepOfAResetBlockCompletes : s53.wasReset = true := rfl
theorem witness_NoStepChangesTheParameters : ∃ t, step (block 5 3 fb0 [.command 0x9000000000000000]) = .next t :=
  ⟨_, rfl⟩
theorem witness_LaterInputsDoNotInfluenceEarlierOnes : s53.wasReset = true := rfl
theorem witness_InvariantHoldsAfterReset :
    (⟨1, 1⟩ : Config).Legal ∧ (⟨2047, 2047⟩ : Config).Legal ∧ Config.observed.Legal := by decide

/-- The invariant of the witness block. -/
theorem s53_inv : s53.Inv where
  cfgLegal := by decide
  fbWf := fb0_wf
  fbBytes := by decide
  padding := fun _ => by decide
  response := ⟨.inl rfl, fun _ => rfl, fun h => absurd h (by decide), fun h => absurd h (by decide), fun _ => rfl⟩
  frameLength := by intro f h; cases h

theorem witness_EveryStepKeepsTheInvariant : ∃ t, s53.Inv ∧ step s53 = .next t := ⟨_, s53_inv, rfl⟩
theorem witness_NoCommandWritesOutsideTheGrid :
    ∃ t, s53.fb.wf = true ∧ exec (.span 0 0 4 2 15) s53 = .next t ∧ s53.cfg.npix ≤ 15 :=
  ⟨_, fb0_wf, rfl, by decide⟩
theorem witness_PaddingNibbleIsNeverWrittenOrScanned :
    s53.cfg.npix % 2 = 1 ∧ s53.fb.wf = true ∧ nibRead s53.fb s53.cfg.npix = 0 ∧
    (∃ t, exec (.span 0 0 4 2 15) s53 = .next t) ∧ (∃ t, step s53 = .next t) ∧
    (∀ p, p < s53.cfg.npix → nibRead [(0, 0x21), (2, 0x40), (7, 0xF0)] p = nibRead s53.fb p) :=
  ⟨by decide, fb0_wf, by decide, ⟨_, rfl⟩, ⟨_, rfl⟩, by decide⟩
theorem witness_OnlyTheListedCommandsWriteEachStore : ∃ t, exec (.cset 1 2 3 4) s53 = .next t := ⟨_, rfl⟩
theorem witness_RepeatingACommandChangesNothingMore :
    ∃ t, s53.fb.wf = true ∧ exec (.line 0 0 4 2 9) s53 = .next t := ⟨_, fb0_wf, rfl⟩
theorem witness_PixelsAndPaletteDoNotInfluenceEachOther :
    (∃ t, exec (.pset 4 2 9) s53 = .next t) ∧ (∀ c, Instr.pset 4 2 9 ≠ .getcolor c) ∧
    (∀ x y, Instr.pset 4 2 9 ≠ .pget x y) ∧ (∀ a, Instr.pset 4 2 9 ≠ .rdbyte a) :=
  ⟨⟨_, rfl⟩, by simp, by simp, by simp⟩
theorem witness_PixelPositionsAreABijection : 4 < s53.cfg.w ∧ 2 < s53.cfg.h ∧ 14 < s53.cfg.npix := by decide
theorem witness_PsetWritesExactlyOnePixel :
    s53.fb.wf = true ∧ ((0 : Int) ≤ 4 ∧ (4 : Int) < s53.cfg.w) ∧ ((0 : Int) ≤ 2 ∧ (2 : Int) < s53.cfg.h) ∧
    ((0 : Int) ≤ 15 ∧ (15 : Int) < 16) := by decide
theorem witness_PgetReturnsThePixel :
    ((0 : Int) ≤ 4 ∧ (4 : Int) < s53.cfg.w) ∧ ((0 : Int) ≤ 0 ∧ (0 : Int) < s53.cfg.h) := by decide
/-- Both clauses: the pixel that was set, and its neighbour in the same byte. -/
theorem witness_PsetThenPgetReadsBack :
    s53.fb.wf = true ∧ ((0 : Int) ≤ 3 ∧ (3 : Int) < s53.cfg.w) ∧ ((0 : Int) ≤ 2 ∧ (2 : Int) < s53.cfg.h) ∧
    ((0 : Int) ≤ 0 ∧ (0 : Int) < 16) ∧ ((0 : Int) ≤ 4 ∧ (4 : Int) < s53.cfg.w) ∧
    ((3 : Int) = 3 ∧ (2 : Int) = 2) ∧ ¬((4 : Int) = 3 ∧ (2 : Int) = 2) := by decide
theorem witness_RdbyteReturnsBothPixelsOfTheByte : 0 < s53.cfg.nbytes ∧ 7 < s53.cfg.nbytes := by decide
/-- The ends of the run, the positions beside it, and an order of its positions. -/
theorem witness_RunFillEqualsPixelWritesInAnyOrder :
    fb0.wf = true ∧ (min 6 3 ≤ 3 ∧ 6 ≤ max 6 3) ∧ (2 < min 6 3 ∨ max 6 3 < 2) ∧ (7 < min 6 3 ∨ max 6 3 < 7) ∧
    [6, 5, 4, 3].Perm (List.range' (min 6 3) (max 6 3 + 1 - min 6 3)) := by decide
theorem witness_ShortRunsAreSingleNibbleWrites : 3 % 2 = 1 := rfl
theorem witness_SpanFillsExactlyTheRun :
    s53.fb.wf = true ∧ ((0 : Int) ≤ 3 ∧ (3 : Int) < s53.cfg.w) ∧ ((0 : Int) ≤ 0 ∧ (0 : Int) < s53.cfg.h) ∧
    ((0 : Int) ≤ 1 ∧ (1 : Int) < s53.cfg.w) ∧ ((0 : Int) ≤ 2 ∧ (2 : Int) < s53.cfg.h) ∧ ((0 : Int) ≤ 6 ∧ (6 : Int) < 16) ∧
    (pixelPos s53.cfg 3 0, pixelPos s53.cfg 1 2) = (3, 11) := by decide
theorem witness_RectfillFillsExactlyTheRectangle :
    s53.fb.wf = true ∧ ((0 : Int) ≤ 4 ∧ (4 : Int) < s53.cfg.w) ∧ ((0 : Int) ≤ 2 ∧ (2 : Int) < s53.cfg.h) ∧
    ((0 : Int) ≤ 1 ∧ (1 : Int) < s53.cfg.w) ∧ ((0 : Int) ≤ 0 ∧ (0 : Int) < s53.cfg.h) ∧ ((0 : Int) ≤ 7 ∧ (7 : Int) < 16) ∧
    InRect 4 2 1 0 1 0 ∧ InRect 4 2 1 0 4 2 ∧ ¬InRect 4 2 1 0 0 0 := by decide
theorem witness_PresentAfterRectfillShowsTheRectangle :
    s53.fb.wf = true ∧ ((0 : Int) ≤ 4 ∧ (4 : Int) < s53.cfg.w) ∧ ((0 : Int) ≤ 2 ∧ (2 : Int) < s53.cfg.h) ∧
    ((0 : Int) ≤ 1 ∧ (1 : Int) < s53.cfg.w) ∧ ((0 : Int) ≤ 0 ∧ (0 : Int) < s53.cfg.h) ∧ ((0 : Int) ≤ 7 ∧ (7 : Int) < 16) ∧
    (4 < s53.cfg.w ∧ 2 < s53.cfg.h) ∧ InRect 4 2 1 0 4 2 ∧ ¬InRect 4 2 1 0 0 0 := by decide
theorem witness_SpecialRunsAndRectanglesCoincide :
    ((0 : Int) ≤ 4 ∧ (4 : Int) < s53.cfg.w) ∧ ((0 : Int) ≤ 2 ∧ (2 : Int) < s53.cfg.h) ∧ ((0 : Int) ≤ 15 ∧ (15 : Int) < 16) ∧
    ((0 : Int) ≤ 0 ∧ (0 : Int) < s53.cfg.w) ∧ ((0 : Int) ≤ 0 ∧ (0 : Int) < s53.cfg.h) := by decide
theorem witness_ClsClearsTheWholeGrid :
    s53.fb.wf = true ∧ s53.cfg.Legal ∧ ((0 : Int) ≤ 15 ∧ (15 : Int) < 16) ∧ 14 < s53.cfg.npix ∧ s53.cfg.npix ≤ 15 := by
  decide
theorem witness_LineLoopEndsAtItsEndPoint :
    ((0 : Int) ≤ 4 ∧ (4 : Int) < s53.cfg.w) ∧ ((0 : Int) ≤ 2 ∧ (2 : Int) < s53.cfg.h) ∧
    ((0 : Int) ≤ 0 ∧ (0 : Int) < s53.cfg.w) ∧ ((0 : Int) ≤ 0 ∧ (0 : Int) < s53.cfg.h) ∧
    s53.cfg = ⟨5, 3⟩ ∧ ((0 : Int) ≤ 0 ∧ (0 : Int) < 16) ∧
    (bresenham 4 2 0 0)[3]? = some ⟨1, 0, 4⟩ ∧ (bresenham 4 2 0 0)[4]? = some ⟨0, 0, 2⟩ := by decide
theorem witness_LinePointsFollowTheBresenhamStep : (bresenham 0 0 1 2)[2]? = some ⟨1, 2, -1⟩ := by decide
theorem witness_LineSetsExactlyItsPoints :
    s53.fb.wf = true ∧ ((0 : Int) ≤ 4 ∧ (4 : Int) < s53.cfg.w) ∧ ((0 : Int) ≤ 2 ∧ (2 : Int) < s53.cfg.h) ∧
    ((0 : Int) ≤ 0 ∧ (0 : Int) < s53.cfg.w) ∧ ((0 : Int) ≤ 0 ∧ (0 : Int) < s53.cfg.h) ∧ ((0 : Int) ≤ 9 ∧ (9 : Int) < 16) ∧
    (⟨4, 2, 2⟩ : Plot) ∈ bresenham 4 2 0 0 ∧ (∀ p ∈ bresenham 4 2 0 0, 4 ≠ pixelPos s53.cfg p.x p.y) ∧
    (∀ p ∈ bresenham 4 2 0 0, 1 ≠ pixelPos s53.cfg p.x p.y / 2) := by decide
theorem witness_StraightLinesPlotEveryPixelBetween :
    ((1 : Int), (-1 : Int)) ∈ [((1 : Int), (0 : Int)), (-1, 0), (0, 1), (0, -1), (1, 1), (1, -1), (-1, 1), (-1, -1)] := by
  decide
theorem witness_LineRegistersNeverOverflow :
    (⟨2047, 2047⟩ : Config).Legal ∧ ((0 : Int) ≤ 2046 ∧ (2046 : Int) < 2047) ∧ (⟨0, 0, 14⟩ : Plot) ∈ bresenham 0 0 15 1 := by
  decide
theorem witness_CsetReplacesOneEntry :
    ((0 : Int) ≤ 15 ∧ (15 : Int) < 16) ∧ ((0 : Int) ≤ 255 ∧ (255 : Int) < 256) ∧ ((0 : Int) ≤ 0 ∧ (0 : Int) < 256) := by
  decide
theorem witness_GetcolorReturnsThePackedEntry : (0 : Int) ≤ 15 ∧ (15 : Int) < 16 := by decide
/-- The success clause at the ends of the ranges, and a failing `cset`. -/
theorem witness_CsetThenGetcolorReadsBack :
    ((0 : Int) ≤ 0 ∧ (0 : Int) < 16) ∧ ((0 : Int) ≤ 255 ∧ (255 : Int) < 256) ∧
    ∃ t, exec (.cset 0 256 0 0) s53 = .next t ∧ t.status ≠ 0 :=
  ⟨by decide, by decide, _, rfl, by decide⟩
theorem witness_PresentEmitsTheWholeSnapshot : 14 < s53.cfg.npix := by decide
theorem witness_OnlyThePresentWordEmitsAFrame :
    (block 5 3 fb0 [.command 0x9000000000000001]).wasReset = true ∧
    (block 5 3 fb0 [.command 0x9000000000000000]).wasReset = true := by decide
theorem witness_RepeatedAndFirstFrames :
    ∃ t u, exec .present s53 = .next t ∧ exec .present t = .next u := ⟨_, _, rfl, rfl⟩

end Sys2Proof.Tests
end

section
/-! What every command and every step keep, at the level of the shared operations: the inversion lemmas of exec and step
(`exec_cases`, `step_cases`) turned into completion, frame and response facts. -/

namespace Sys2Proof.Machine

/-- Every command completes (R35, R228). -/
theorem exec_completes (i : Instr) (s : State) : ∃ t, exec i s = .next t := by
  rw [exec_eq_finish]
  cases checksOf i s.cfg with
  | none => exact ⟨_, rfl⟩
  | some e => exact ⟨_, rfl⟩

/-- A command changes the two stores, the response registers and the frame port, and nothing else. -/
theorem exec_frame {i : Instr} {s t : State} (h : exec i s = .next t) :
    t = { s with
      fb := t.fb, pal := t.pal, frameOut := t.frameOut, status := t.status, errarg := t.errarg, result := t.result } := by
  obtain ⟨e, -, rfl⟩ | ⟨-, rfl⟩ := exec_cases h
  · rfl
  · rfl

theorem exec_cfg {i : Instr} {s t : State} (h : exec i s = .next t) : t.cfg = s.cfg := by rw [exec_frame h]

theorem exec_wasReset {i : Instr} {s t : State} (h : exec i s = .next t) : t.wasReset = s.wasReset := by
  rw [exec_frame h]

/-- With no input a step only empties the frame port. -/
theorem step_idle {s : State} (hh : s.host = []) : step s = .next (s.accept []) := by
  unfold step; rw [hh]

/-- A step whose next input is a reset applies it. -/
theorem step_reset {s : State} {pal : Palette} {rest : List HostInput} (hh : s.host = .reset pal :: rest) :
    step s = .next ((s.accept rest).applyReset pal) := by
  unfold step; rw [hh]

/-- No step changes the parameters. -/
theorem step_cfg {s t : State} (h : step s = .next t) : t.cfg = s.cfg := by
  obtain ⟨-, rfl⟩ | ⟨pal, rest, -, rfl⟩ | ⟨w, rest, e, -, -, -, rfl⟩ | ⟨w, rest, i, -, -, -, he⟩ := step_cases h
  · rfl
  · rfl
  · rfl
  · exact (exec_cfg he).trans (State.accept_cfg rest s)

/-- Every word completes, and the block stays reset. -/
theorem runWord_completes (w : CmdWord) (s : State) : ∃ t, runWord w s = .next t ∧ t.wasReset = s.wasReset := by
  cases hd : decode w with
  | command i =>
    obtain ⟨t, ht⟩ := exec_completes i s
    exact ⟨t, (runWord_command hd s).trans ht, exec_wasReset ht⟩
  | illegal e => exact ⟨_, runWord_illegal hd s, rfl⟩

/-! ### Legal responses (R22, R23, R24, R220) -/

theorem legalResponse_ok (v : BitVec 32) : LegalResponse statusOk 0 v where
  code := .inl rfl
  okArg _ := rfl
  rangeArg h := absurd h (by decide)
  illegalArg h := absurd h (by decide)
  failedResult h := absurd rfl h

theorem legalResponse_argOutOfRange {k : BitVec 3} (hk : k ≤ 4) : LegalResponse statusArgOutOfRange k 0 where
  code := .inr (.inl rfl)
  okArg h := absurd h (by decide)
  rangeArg _ := hk
  illegalArg h := absurd h (by decide)
  failedResult _ := rfl

/-- An illegal word names the opcode, 7, or one of the fields 0 to 4. -/
theorem errarg_illegal (e : Illegal) : e.errarg ≤ 4 ∨ e.errarg = 7 := by
  cases e with
  | opcode => exact .inr rfl
  | reserved k => exact .inl (by revert k; decide)

theorem legalResponse_illegalCommand (e : Illegal) : LegalResponse statusIllegalCommand e.errarg 0 where
  code := .inr (.inr rfl)
  okArg h := absurd h (by decide)
  rangeArg h := absurd h (by decide)
  illegalArg _ := errarg_illegal e
  failedResult _ := rfl

/-- The error of a failed range check is a legal response. -/
theorem legalResponse_checksOf {i : Instr} {cfg : Config} {e : CmdError} (h : checksOf i cfg = some e) :
    LegalResponse e.code e.arg 0 := by
  obtain ⟨hcode, harg⟩ := checksOf_some h
  rw [hcode]
  exact legalResponse_argOutOfRange harg

/-- Every command writes a legal response, whatever the state before it. -/
theorem exec_legalResponse {i : Instr} {s t : State} (h : exec i s = .next t) :
    LegalResponse t.status t.errarg t.result := by
  obtain ⟨e, hc, rfl⟩ | ⟨-, rfl⟩ := exec_cases h
  · exact legalResponse_checksOf hc
  · exact legalResponse_ok _

end Sys2Proof.Machine
end

section
/-! The words of the nine commands, read backwards: what decoding to a command says of a word's opcode and reserved fields,
and that PRESENT has one word only (R75, R76, R77). -/

namespace Sys2Proof

/-- A word that decodes to a command has its opcode, and every reserved field of it is zero. -/
theorem decode_command_fields {w : CmdWord} {i : Instr} (h : decode w = .command i) :
    opField w = i.opcode ∧ ∀ k ∈ reservedFields i.opcode, argField w k = 0 := by
  unfold decode at h
  split at h
  case h_10 => cases h
  all_goals
    rename_i hop
    obtain ⟨hres, rfl⟩ := guardReserved_eq_command.mp h
    exact ⟨BitVec.eq_of_toNat_eq hop, hres⟩

/-- The PRESENT word is `0x9000000000000000` and no other. -/
theorem decode_eq_present {w : CmdWord} : decode w = .command .present ↔ w = 0x9000000000000000 := by
  constructor
  · intro h
    obtain ⟨hop, hres⟩ := decode_command_fields h
    have hzero : ∀ k : Fin 5, argField w k = 0 := fun k => hres k (by revert k; decide)
    rw [← packWord_fields w, hop, hzero, hzero, hzero, hzero, hzero]
    decide
  · rintro rfl; decide

end Sys2Proof

namespace Sys2Proof.Machine

/-- A successful command that finds the frame port empty leaves a frame on it exactly when it is PRESENT. -/
theorem emittedFrame_eq_some {i : Instr} {s : State} (hs : s.frameOut = none) :
    (∃ f, emittedFrame i s = some f) ↔ i = .present := by
  cases i
  case present => exact ⟨fun _ => rfl, fun _ => ⟨_, rfl⟩⟩
  all_goals simp [emittedFrame, hs]

/-- A command that finds the frame port empty leaves a frame on it exactly when it is PRESENT, which never fails. -/
theorem exec_emits_iff {i : Instr} {s t : State} (hs : s.frameOut = none) (h : exec i s = .next t) :
    (∃ f, t.frameOut = some f) ↔ i = .present := by
  obtain ⟨e, hc, rfl⟩ | ⟨-, rfl⟩ := exec_cases h
  · constructor
    · rintro ⟨f, hf⟩; cases hs.symm.trans hf
    · rintro rfl; cases hc
  · exact emittedFrame_eq_some hs

end Sys2Proof.Machine
end

section
/-! No drawing command writes a nibble at or beyond position NPIX (R60): the range checks keep every position of a pixel, a
run, a rectangle and a line's plots inside the grid. -/

namespace Sys2Proof.Machine

/-- On one axis, `|v - u|` unit steps of R161's sign lead from `u` to `v`. -/
theorem add_sign_mul_abs (u v : Int) : v = u + (if u < v then 1 else -1) * |v - u| := by
  split
  · rw [abs_of_pos (by omega)]; ring
  · rw [abs_of_nonpos (by omega)]; ring

/-- On one axis, at most `|v - u|` unit steps of R161's sign from `u` stay between `u` and `v`. -/
theorem between_add_sign_mul {u v k : Int} (h0 : 0 ≤ k) (hk : k ≤ |v - u|) :
    min u v ≤ u + (if u < v then 1 else -1) * k ∧ u + (if u < v then 1 else -1) * k ≤ max u v := by
  split
  · rw [abs_of_pos (by omega)] at hk; omega
  · rw [abs_of_nonpos (by omega)] at hk; omega

/-- What `Bresenham(x1, y1, x2, y2)` plots: the whole segment, from its set-up in R161. -/
theorem segmentPlots_bresenham (x1 y1 x2 y2 : Int) :
    SegmentPlots |x2 - x1| |y2 - y1| x2 y2 (if x1 < x2 then 1 else -1) (if y1 < y2 then 1 else -1)
      |x2 - x1| |y2 - y1| ⟨x1, y1, |x2 - x1| - |y2 - y1|⟩ (bresenham x1 y1 x2 y2) := by
  have ha := abs_nonneg (x2 - x1)
  have hb := abs_nonneg (y2 - y1)
  have hx := add_sign_mul_abs x1 x2
  have hy := add_sign_mul_abs y1 y2
  simp only [bresenham, Int.natCast_natAbs]
  generalize |x2 - x1| = a at *
  generalize |y2 - y1| = b at *
  have whole : Remaining a b a b := by
    refine ⟨ha, hb, le_rfl, le_rfl, ?_, ?_, id, id⟩ <;> rw [mul_comm b a] <;> omega
  exact segmentPlots_bresenhamLoop ha hb (by split <;> simp) (by split <;> simp) _ a b _ whole (by omega) hx hy (by ring)

/-- Every plot of a line lies in the bounding box of its endpoints (R164). -/
theorem inRect_of_mem_bresenham {x1 y1 x2 y2 : Int} {p : Plot} (hp : p ∈ bresenham x1 y1 x2 y2) :
    InRect x1 y1 x2 y2 p.x p.y := by
  obtain ⟨⟨i, hi0, hi, hx⟩, ⟨j, hj0, hj, hy⟩, -⟩ := (segmentPlots_bresenham x1 y1 x2 y2).box p hp
  obtain ⟨hxl, hxu⟩ := between_add_sign_mul hi0 hi
  obtain ⟨hyl, hyu⟩ := between_add_sign_mul hj0 hj
  rw [InRect, hx, hy]
  exact ⟨hxl, hxu, hyl, hyu⟩

/-- Every pixel of a rectangle with in-range corners has a position below NPIX. -/
theorem pixelPos_lt_of_inRect {c : Config} {x1 y1 x2 y2 x y : Int} (hx1 : 0 ≤ x1 ∧ x1 < c.w) (hy1 : 0 ≤ y1 ∧ y1 < c.h)
    (hx2 : 0 ≤ x2 ∧ x2 < c.w) (hy2 : 0 ≤ y2 ∧ y2 < c.h) (h : InRect x1 y1 x2 y2 x y) : pixelPos c x y < c.npix := by
  obtain ⟨hxl, hxu, hyl, hyu⟩ := h
  exact pixelPos_lt (by omega) (by omega)

/-- A successful command keeps every nibble at or beyond NPIX. -/
theorem nibRead_drawnFb_outside {i : Instr} {s : State} (hwf : s.fb.wf = true) (hc : checksOf i s.cfg = none) {q : Nat}
    (hq : s.cfg.npix ≤ q) : nibRead (drawnFb i s) q = nibRead s.fb q := by
  cases i
  case pset x y c =>
    simp only [checksOf, firstFailure_eq_none, List.forall_mem_cons, checkX, checkY, checkRange_eq_none] at hc
    obtain ⟨hx, hy, -⟩ := hc
    have hp := pixelPos_lt hx hy
    rw [drawnFb, nibRead_nibWrite_eq hwf, if_neg (by omega)]
  case span x1 y1 x2 y2 c =>
    obtain ⟨hx1, hy1, hx2, hy2, -⟩ := checkEndpoints_eq_none.mp hc
    have hp1 := pixelPos_lt hx1 hy1
    have hp2 := pixelPos_lt hx2 hy2
    rw [drawnFb, nibRead_fillRun hwf, if_neg (by omega)]
  case rectfill x1 y1 x2 y2 c =>
    obtain ⟨hx1, hy1, hx2, hy2, -⟩ := checkEndpoints_eq_none.mp hc
    rw [drawnFb, fillRect, nibRead_fillRows _ _ _ _ _ _ hwf, if_neg]
    rintro ⟨y, hy, hyn, -, hqy⟩
    have hp1 : pixelPos s.cfg x1 y < s.cfg.npix := pixelPos_lt hx1 (by omega)
    have hp2 : pixelPos s.cfg x2 y < s.cfg.npix := pixelPos_lt hx2 (by omega)
    omega
  case line x1 y1 x2 y2 c =>
    obtain ⟨hx1, hy1, hx2, hy2, -⟩ := checkEndpoints_eq_none.mp hc
    rw [drawnFb, nibRead_plotAll _ _ _ hwf, if_neg]
    intro hmem
    obtain ⟨p, hp, rfl⟩ := List.mem_map.mp hmem
    have := pixelPos_lt_of_inRect hx1 hy1 hx2 hy2 (inRect_of_mem_bresenham hp)
    omega
  all_goals rfl

/-- No command changes a nibble at or beyond NPIX. -/
theorem exec_nibRead_outside {i : Instr} {s t : State} (hwf : s.fb.wf = true) (h : exec i s = .next t) {q : Nat}
    (hq : s.cfg.npix ≤ q) : nibRead t.fb q = nibRead s.fb q := by
  obtain ⟨e, -, rfl⟩ | ⟨hc, rfl⟩ := exec_cases h
  · rfl
  · exact nibRead_drawnFb_outside hwf hc hq

/-- A pixel of an unlisted byte is 0. -/
theorem nibRead_of_unlisted {fb : Memory} {q : Nat} (h : fb.read (q / 2) = unlistedByte) : nibRead fb q = 0 := by
  unfold nibRead
  rw [h]
  split <;> rfl

/-- The empty list of bytes is a buffer of zero pixels (R40). -/
@[simp] theorem nibRead_nil (q : Nat) : nibRead [] q = 0 := nibRead_of_unlisted (Memory.read_nil _)

/-- A nibble at or beyond NPIX that is 0 is 0 after every step. -/
theorem step_nibRead_outside_zero {s t : State} (hwf : s.fb.wf = true) {q : Nat} (hq : s.cfg.npix ≤ q)
    (h0 : nibRead s.fb q = 0) (h : step s = .next t) : nibRead t.fb q = 0 := by
  obtain ⟨-, rfl⟩ | ⟨pal, rest, -, rfl⟩ | ⟨w, rest, e, -, -, -, rfl⟩ | ⟨w, rest, i, -, -, -, he⟩ := step_cases h
  · exact h0
  · exact nibRead_nil q
  · exact h0
  · exact (exec_nibRead_outside (s := s.accept rest) hwf he hq).trans h0

/-- The buffer lists only existing bytes and its padding nibble is 0 exactly when every nibble at or beyond NPIX is 0. -/
theorem fbBytes_and_padding_iff {cfg : Config} {fb : Memory} (hwf : fb.wf = true) :
    ((∀ cell ∈ fb, cell.1 < cfg.nbytes) ∧ (cfg.npix % 2 = 1 → nibRead fb cfg.npix = 0)) ↔
      ∀ q, cfg.npix ≤ q → nibRead fb q = 0 := by
  constructor
  · rintro ⟨hbytes, hpad⟩ q hq
    by_cases hbyte : q / 2 < cfg.nbytes
    · obtain ⟨rfl, hodd⟩ : q = cfg.npix ∧ cfg.npix % 2 = 1 := by unfold Config.nbytes at hbyte; omega
      exact hpad hodd
    · refine nibRead_of_unlisted ?_
      by_contra hne
      exact hbyte (hbytes _ ((Memory.mem_iff_read hwf _ _).mpr ⟨rfl, hne⟩))
  · intro hzero
    refine ⟨?_, fun _ => hzero _ le_rfl⟩
    rintro ⟨a, v⟩ hmem
    by_contra hge
    have hout : cfg.npix ≤ 2 * a := by unfold Config.nbytes at hge; dsimp only at hge; omega
    obtain ⟨hread, hv⟩ := (Memory.mem_iff_read hwf a v).mp hmem
    rw [read_eq_packByte, hzero _ hout, hzero _ (by omega)] at hread
    exact hv (hread.symm.trans (by decide))

end Sys2Proof.Machine
end

section
/-! The invariant of a block: it holds after reset, and every step keeps it. Each of the four things a step can do keeps it. -/

namespace Sys2Proof.Machine

/-- Under the invariant every nibble at or beyond NPIX is 0. -/
theorem State.Inv.outside_zero {s : State} (h : s.Inv) : ∀ q, s.cfg.npix ≤ q → nibRead s.fb q = 0 :=
  (fbBytes_and_padding_iff h.fbWf).mp ⟨h.fbBytes, h.padding⟩

/-- The invariant holds after reset, for every legal grid. -/
theorem inv_afterReset {cfg : Config} (hcfg : cfg.Legal) (pal : Palette) (host : List HostInput) :
    (State.afterReset cfg pal host).Inv where
  cfgLegal := hcfg
  fbWf := rfl
  fbBytes := by simp
  padding _ := nibRead_nil _
  response := legalResponse_ok 0
  frameLength := by simp

/-- Taking an input keeps the invariant. -/
theorem State.Inv.accept {s : State} (h : s.Inv) (rest : List HostInput) : (s.accept rest).Inv where
  cfgLegal := h.cfgLegal
  fbWf := h.fbWf
  fbBytes := h.fbBytes
  padding := h.padding
  response := h.response
  frameLength := by simp

/-- Raising an error with a legal response keeps the invariant. -/
theorem State.Inv.raiseError {s : State} (h : s.Inv) {e : CmdError} (he : LegalResponse e.code e.arg 0) :
    (s.raiseError e).Inv where
  cfgLegal := h.cfgLegal
  fbWf := h.fbWf
  fbBytes := h.fbBytes
  padding := h.padding
  response := he
  frameLength := h.frameLength

/-- A frame left by a successful command has NPIX colours: it is the one PRESENT scans, or the one that was there. -/
theorem length_of_emittedFrame {i : Instr} {s : State} (hs : ∀ f, s.frameOut = some f → f.length = s.cfg.npix)
    {f : Frame} (hf : emittedFrame i s = some f) : f.length = s.cfg.npix := by
  cases i
  case present =>
    obtain rfl : frameOf s.cfg s.fb s.pal = f := Option.some.inj hf
    simp [frameOf]
  all_goals exact hs f hf

/-- The whole effect of a successful command keeps the invariant. -/
theorem State.Inv.succeeded {s : State} (h : s.Inv) {i : Instr} (hc : checksOf i s.cfg = none) :
    (succeeded i s).Inv := by
  have hwf : (drawnFb i s).wf = true := wf_drawnFb h.fbWf
  obtain ⟨hbytes, hpad⟩ := (fbBytes_and_padding_iff (cfg := s.cfg) hwf).mpr fun q hq =>
    (nibRead_drawnFb_outside h.fbWf hc hq).trans (h.outside_zero q hq)
  exact ⟨h.cfgLegal, hwf, hbytes, hpad, legalResponse_ok _, fun f => length_of_emittedFrame h.frameLength⟩

/-- Every command keeps the invariant. -/
theorem State.Inv.exec {i : Instr} {s t : State} (h : s.Inv) (he : exec i s = .next t) : t.Inv := by
  obtain ⟨e, hc, rfl⟩ | ⟨hc, rfl⟩ := exec_cases he
  · exact h.raiseError (legalResponse_checksOf hc)
  · exact h.succeeded hc

/-- Settles O24: each of the four things a step can do keeps the invariant. -/
theorem everyStepKeepsTheInvariant : Obligations.EveryStepKeepsTheInvariant := by
  intro s t h hstep
  obtain ⟨-, rfl⟩ | ⟨pal, rest, -, rfl⟩ | ⟨w, rest, e, -, -, -, rfl⟩ | ⟨w, rest, i, -, -, -, he⟩ := step_cases hstep
  · exact h.accept []
  · exact inv_afterReset h.cfgLegal pal rest
  · exact (h.accept rest).raiseError (legalResponse_illegalCommand e)
  · exact (h.accept rest).exec he

/-- Settles O23: the observed grid of the model's reset state is a legal one. -/
theorem invariantHoldsAfterReset : Obligations.InvariantHoldsAfterReset :=
  ⟨fun _ pal host hcfg => inv_afterReset hcfg pal host, inv_afterReset (by decide) Config.p0 []⟩

end Sys2Proof.Machine
end

section
/-! The other statements about the state: steps, reset, responses, the padding nibble and which command writes which store. -/

namespace Sys2Proof.Machine

/-- Settles O15: the word is consumed by the step, decoded and run. -/
theorem stepRunsTheDecodedCommand : Obligations.StepRunsTheDecodedCommand :=
  fun s _ rest _ hreset hhost hdec => (step_command hreset hhost).trans (runWord_command hdec (s.accept rest))

/-- Settles O18: the reset buffer lists no byte, and an unlisted byte is 0. -/
theorem stateAfterReset : Obligations.StateAfterReset :=
  fun _ _ _ => ⟨Memory.read_nil, nibRead_nil, fun _ => rfl, rfl, rfl, rfl, rfl⟩

/-- Settles O13: an illegal word reports the opcode or a reserved field, a command its failed check or success. -/
theorem everyCommandWritesALegalResponse : Obligations.EveryCommandWritesALegalResponse := by
  intro s t w rest hhost hstep
  obtain ⟨hh, -⟩ | ⟨pal, rest', hh, -⟩ | ⟨w', rest', e, -, -, -, rfl⟩ | ⟨w', rest', i, -, -, -, he⟩ := step_cases hstep
  · cases hhost.symm.trans hh
  · cases hhost.symm.trans hh
  · exact legalResponse_illegalCommand e
  · exact exec_legalResponse he

/-- Settles O20, by the host's next input. -/
theorem everyStepOfAResetBlockCompletes : Obligations.EveryStepOfAResetBlockCompletes := by
  intro s hreset
  match hh : s.host with
  | [] => exact ⟨_, step_idle hh, hreset⟩
  | .reset pal :: rest => exact ⟨_, step_reset hh, rfl⟩
  | .command w :: rest =>
    obtain ⟨t, ht, hkeep⟩ := runWord_completes w (s.accept rest)
    exact ⟨t, (step_command hreset hh).trans ht, hkeep.trans hreset⟩

/-- Settles O21, by what a step can do. -/
theorem noStepChangesTheParameters : Obligations.NoStepChangesTheParameters :=
  fun _ _ => step_cfg

/-- PRESENT reads only the pixels below NPIX (R27, R200). -/
theorem frameOf_congr {cfg : Config} {fb fb' : Memory} (pal : Palette)
    (h : ∀ p, p < cfg.npix → nibRead fb' p = nibRead fb p) : frameOf cfg fb' pal = frameOf cfg fb pal :=
  List.map_congr_left fun p hp => by rw [h p (List.mem_range.mp hp)]

/-- Bits 7..4 of a zero-extended byte are its high nibble. -/
theorem extractLsb'_four_setWidth (v : Byte) : (v.setWidth 32).extractLsb' 4 4 = hiNibble v := by
  revert v; decide

/-- With NPIX odd, RDBYTE of the last byte succeeds and returns the padding nibble in bits 7..4 (R27, R110). -/
theorem rdbyte_returns_padding {s : State} (hodd : s.cfg.npix % 2 = 1) :
    ∃ t, exec (.rdbyte (s.cfg.nbytes - 1)) s = .next t ∧ t.status = 0 ∧
      t.result.extractLsb' 4 4 = nibRead s.fb s.cfg.npix := by
  have hlast : s.cfg.nbytes - 1 < s.cfg.nbytes ∧ s.cfg.npix / 2 = s.cfg.nbytes - 1 := by unfold Config.nbytes; omega
  obtain ⟨hlt, hpad⟩ := hlast
  refine ⟨succeeded (.rdbyte (s.cfg.nbytes - 1)) s, ?_, rfl, ?_⟩
  · rw [exec_eq_finish, checksOf, checkAddr_eq_none.mpr hlt, finish_none]
  · rw [nibRead_odd hodd, hpad]
    exact extractLsb'_four_setWidth _

/-- Settles O26: the padding nibble has position NPIX, just outside the grid. -/
theorem paddingNibbleIsNeverWrittenOrScanned : Obligations.PaddingNibbleIsNeverWrittenOrScanned := by
  intro cfg hodd
  refine ⟨?notWritten, ?notScanned, ?returned, fun pal host => nibRead_nil _, ?staysZero⟩
  case notWritten =>
    rintro i s t rfl hwf he
    exact exec_nibRead_outside hwf he le_rfl
  case notScanned =>
    rintro s fb' rfl hsame
    exact ⟨_, _, rfl, rfl, congrArg some (frameOf_congr s.pal hsame)⟩
  case returned =>
    rintro s rfl
    exact rdbyte_returns_padding hodd
  case staysZero =>
    rintro s t rfl hwf h0 hstep
    exact step_nibRead_outside_zero hwf le_rfl h0 hstep

/-- Settles O27: a failed command writes the response only, and a successful one what its constructor says. -/
theorem onlyTheListedCommandsWriteEachStore : Obligations.OnlyTheListedCommandsWriteEachStore := by
  intro i s t h
  have hframe := exec_frame h
  obtain ⟨e, -, rfl⟩ | ⟨-, rfl⟩ := exec_cases h
  · exact ⟨.inl rfl, .inl rfl, .inl rfl, hframe⟩
  · refine ⟨?_, ?_, ?_, hframe⟩
    · cases i with
      | pset | span | rectfill | line => exact .inr trivial
      | _ => exact .inl rfl
    · cases i with
      | cset => exact .inr trivial
      | _ => exact .inl rfl
    · cases i with
      | present => exact .inr rfl
      | _ => exact .inl rfl

/-- Settles O52: only PRESENT fills the empty frame port, and only one word decodes to PRESENT. -/
theorem onlyThePresentWordEmitsAFrame : Obligations.OnlyThePresentWordEmitsAFrame := by
  intro s w rest hreset hhost
  rw [step_command hreset hhost, ← decode_eq_present]
  cases hd : decode w with
  | command i =>
    obtain ⟨t, ht⟩ := exec_completes i (s.accept rest)
    refine ⟨t, (runWord_command hd _).trans ht, ?_⟩
    rw [exec_emits_iff (State.accept_frameOut rest s) ht, Decoded.command.injEq]
  | illegal e => exact ⟨_, runWord_illegal hd _, by simp⟩

end Sys2Proof.Machine
end

section
/-! The pixel positions of spec/20_memory.md: Pos and its inverse (R52), and that no command leaves the grid (R60). -/

namespace Sys2Proof.Machine

/-- Settles O25: the bounds checks keep every pixel, run, rectangle row and plot below NPIX. -/
theorem noCommandWritesOutsideTheGrid : Obligations.NoCommandWritesOutsideTheGrid :=
  fun _ _ _ hwf h _ hq => exec_nibRead_outside hwf h hq

/-- `Pos` of natural coordinates is the row-major sum, without truncation (R52). -/
theorem pixelPos_natCast (c : Config) (x y : Nat) : pixelPos c x y = x + y * c.w := by
  exact_mod_cast pixelPos_eq (c := c) (Int.natCast_nonneg x) (Int.natCast_nonneg y)

/-- Settles O30: division by the width with remainder inverts `x + y * W` as long as `x < W`. -/
theorem pixelPositionsAreABijection : Obligations.PixelPositionsAreABijection := by
  intro cfg
  constructor
  · intro x y hx hy
    have hlt : pixelPos cfg x y < cfg.npix := pixelPos_lt (by omega) (by omega)
    have hw : 0 < cfg.w := by omega
    refine ⟨pixelPos_natCast cfg x y, by omega, hlt, ?_, ?_⟩
    · rw [pixelPos_natCast, Nat.add_mul_mod_self_right, Nat.mod_eq_of_lt hx]
    · rw [pixelPos_natCast, Nat.add_mul_div_right _ _ hw, Nat.div_eq_of_lt hx, Nat.zero_add]
  · intro p hp
    have hw : 0 < cfg.w := Nat.pos_of_mul_pos_right (Nat.zero_lt_of_lt hp)
    refine ⟨Nat.mod_lt _ hw, Nat.div_lt_of_lt_mul hp, ?_⟩
    rw [pixelPos_natCast, Nat.mod_add_div']

end Sys2Proof.Machine
end

section
/-! What a command's outcome depends on (R50, R61): its range checks read the parameters only, and each store it writes reads
that store only. The host's later inputs and the other store make no difference. -/

namespace Sys2Proof.Machine

/-- A command with a failed check only raises its error. -/
theorem exec_of_check_fails {i : Instr} {s : State} {e : CmdError} (hc : checksOf i s.cfg = some e) :
    exec i s = .next (s.raiseError e) := by
  rw [exec_eq_finish, hc, finish_some]

/-- A command whose checks pass has its whole effect. -/
theorem exec_of_checks_pass {i : Instr} {s : State} (hc : checksOf i s.cfg = none) :
    exec i s = .next (succeeded i s) := by
  rw [exec_eq_finish, hc, finish_none]

/-- The whole effect of a command does not read the host's later inputs. -/
theorem succeeded_host (i : Instr) (s : State) (rest : List HostInput) :
    succeeded i { s with host := rest } = { succeeded i s with host := rest } := by
  cases i <;> rfl

/-- What a command draws does not depend on the palette. -/
theorem drawnFb_pal (i : Instr) (s : State) (pal : Palette) : drawnFb i { s with pal := pal } = drawnFb i s := by
  cases i <;> rfl

/-- What a command writes to the palette does not depend on the pixel buffer. -/
theorem writtenPal_fb (i : Instr) (s : State) (fb : Memory) : writtenPal i { s with fb := fb } = writtenPal i s := by
  cases i <;> rfl

/-- Of all commands only GETCOLOR returns something of the palette. -/
theorem readResult_pal {i : Instr} (hi : ∀ c, i ≠ .getcolor c) (s : State) (pal : Palette) :
    readResult i { s with pal := pal } = readResult i s := by
  cases i with
  | getcolor c => exact absurd rfl (hi c)
  | _ => rfl

/-- Of all commands only PGET and RDBYTE return something of the pixel buffer. -/
theorem readResult_fb {i : Instr} (hpget : ∀ x y, i ≠ .pget x y) (hrdbyte : ∀ a, i ≠ .rdbyte a) (s : State)
    (fb : Memory) : readResult i { s with fb := fb } = readResult i s := by
  cases i with
  | pget x y => exact absurd rfl (hpget x y)
  | rdbyte a => exact absurd rfl (hrdbyte a)
  | _ => rfl

/-- Settles O29: with either store replaced the same checks fail, or both runs have their whole effect. -/
theorem pixelsAndPaletteDoNotInfluenceEachOther : Obligations.PixelsAndPaletteDoNotInfluenceEachOther := by
  intro i s t h
  obtain ⟨e, hc, rfl⟩ | ⟨hc, rfl⟩ := exec_cases h
  · exact ⟨fun pal' => ⟨_, exec_of_check_fails hc, rfl, rfl, rfl, fun _ => rfl⟩,
      fun fb' => ⟨_, exec_of_check_fails hc, rfl, rfl, rfl, fun _ _ => rfl⟩⟩
  · exact ⟨fun pal' => ⟨_, exec_of_checks_pass hc, drawnFb_pal i s pal', rfl, rfl, fun hi => readResult_pal hi s pal'⟩,
      fun fb' => ⟨_, exec_of_checks_pass hc, writtenPal_fb i s fb', rfl, rfl,
        fun hpget hrdbyte => readResult_fb hpget hrdbyte s fb'⟩⟩

/-- A command runs alike whatever the host presents later, and leaves those inputs to be taken. -/
theorem exec_host {i : Instr} {s t : State} (h : exec i s = .next t) (rest : List HostInput) :
    exec i { s with host := rest } = .next { t with host := rest } := by
  obtain ⟨e, hc, rfl⟩ | ⟨hc, rfl⟩ := exec_cases h
  · exact exec_of_check_fails hc
  · rw [exec_of_checks_pass (s := { s with host := rest }) hc, succeeded_host]

/-- One input takes a reset block to a reset state that no later input has influenced. -/
theorem step_ignores_later_inputs {s : State} (hreset : s.wasReset = true) (input : HostInput) :
    ∃ t : State, t.wasReset = true ∧
      ∀ rest, step { s with host := input :: rest } = .next { t with host := rest } := by
  cases input with
  | reset pal => exact ⟨(s.accept []).applyReset pal, rfl, fun rest => step_reset rfl⟩
  | command w =>
    have hstep (rest) : step { s with host := .command w :: rest } = runWord w (s.accept rest) :=
      step_command hreset rfl
    cases hd : decode w with
    | command i =>
      obtain ⟨t, ht⟩ := exec_completes i (s.accept [])
      exact ⟨t, (exec_wasReset ht).trans hreset,
        fun rest => (hstep rest).trans ((runWord_command hd _).trans (exec_host ht rest))⟩
    | illegal e =>
      exact ⟨(s.accept []).illegalCommand e, hreset, fun rest => (hstep rest).trans (runWord_illegal hd _)⟩

/-- A run whose first step completes continues from the state after it. -/
theorem run_succ {M : Host.Core} {s t : M.State} (h : M.step s = .next t) (n : Nat) : M.run (n + 1) s = M.run n t := by
  rw [Host.Core.run, h]

/-- The first inputs take a reset block to a state that no later input has influenced. -/
theorem run_ignores_later_inputs (first : List HostInput) : ∀ {s : State}, s.wasReset = true →
    ∃ t : State, ∀ rest, core.run first.length { s with host := first ++ rest } = .next { t with host := rest } := by
  induction first with
  | nil => exact fun {s} _ => ⟨s, fun _ => rfl⟩
  | cons input first ih =>
    intro s hreset
    obtain ⟨s', hreset', hstep⟩ := step_ignores_later_inputs hreset input
    obtain ⟨t, ht⟩ := ih hreset'
    exact ⟨t, fun rest => (run_succ (M := core) (hstep (first ++ rest)) first.length).trans (ht rest)⟩

/-- Settles O22, by one state that serves every list of later inputs. -/
theorem laterInputsDoNotInfluenceEarlierOnes : Obligations.LaterInputsDoNotInfluenceEarlierOnes := by
  intro s first rest rest' hreset
  obtain ⟨t, ht⟩ := run_ignores_later_inputs first hreset
  exact ⟨t, ht rest, ht rest'⟩

end Sys2Proof.Machine
end

section
/-! Every command is idempotent on the two stores (R58): what it draws is a fixed set of pixels in a fixed colour, and what
CSET writes is a fixed entry. -/

namespace Sys2Proof.Machine

/-- An operation that paints the pixels of a fixed set in a fixed colour changes nothing more when it is repeated. -/
theorem paint_paint {f : Memory → Memory} {painted : Nat → Prop} [DecidablePred painted] {c : Index}
    (hwf : ∀ {fb : Memory}, fb.wf = true → (f fb).wf = true)
    (hread : ∀ {fb : Memory}, fb.wf = true → ∀ q, nibRead (f fb) q = if painted q then c else nibRead fb q)
    {fb : Memory} (h : fb.wf = true) : f (f fb) = f fb := by
  refine fb_ext (hwf (hwf h)) (hwf h) fun q => ?_
  rw [hread (hwf h), hread h]
  split <;> rfl

open Classical in
/-- Drawing the same command again leaves the pixel buffer as it is. -/
theorem drawnFb_succeeded {i : Instr} {s : State} (h : s.fb.wf = true) : drawnFb i (succeeded i s) = drawnFb i s := by
  cases i
  case pset x y c => exact paint_paint (wf_nibWrite · _ _) (nibRead_nibWrite_eq · _ _) h
  case span x1 y1 x2 y2 c => exact paint_paint (wf_fillRun · _ _ _) (nibRead_fillRun · _ _ _) h
  case rectfill x1 y1 x2 y2 c => exact paint_paint (wf_fillRows _ _ _ _ _ _) (nibRead_fillRows _ _ _ _ _ _) h
  case line x1 y1 x2 y2 c => exact paint_paint (wf_plotAll _ _ _) (nibRead_plotAll _ _ _) h
  all_goals rfl

/-- Writing the same command's palette entry again leaves the palette as it is. -/
theorem writtenPal_succeeded (i : Instr) (s : State) : writtenPal i (succeeded i s) = writtenPal i s := by
  cases i
  case cset c r g b => exact Vector.set_set _ (indexOf c).isLt
  all_goals rfl

/-- Settles O28: the second run fails the same check, or paints the same pixels and writes the same entry again. -/
theorem repeatingACommandChangesNothingMore : Obligations.RepeatingACommandChangesNothingMore := by
  intro i s t hwf h
  obtain ⟨e, hc, rfl⟩ | ⟨hc, rfl⟩ := exec_cases h
  · exact ⟨_, exec_of_check_fails hc, rfl, rfl⟩
  · exact ⟨_, exec_of_checks_pass hc, drawnFb_succeeded hwf, writtenPal_succeeded i s⟩

end Sys2Proof.Machine
end

section
/-! Encoding and decoding are inverse (R72, R78, R80): what the decoder reads from a word with a legal opcode, and the
raw fields of a command as the patterns of its arguments. -/

namespace Sys2Proof

/-- Every command's word has its opcode, its raw fields, and zeros in its reserved fields. -/
theorem encodedFields (i : Instr) : Laws.EncodedFields.Statement i := by
  cases i with
  | pset => exact Laws.EncodedFields.pset ..
  | span => exact Laws.EncodedFields.span ..
  | rectfill => exact Laws.EncodedFields.rectfill ..
  | line => exact Laws.EncodedFields.line ..
  | cset => exact Laws.EncodedFields.cset ..
  | pget => exact Laws.EncodedFields.pget ..
  | getcolor => exact Laws.EncodedFields.getcolor ..
  | rdbyte => exact Laws.EncodedFields.rdbyte ..
  | present => exact Laws.EncodedFields.present

/-- The opcode of a command is 1 to 9 (R77). -/
theorem legal_opcode (i : Instr) : 1 ≤ i.opcode.toNat ∧ i.opcode.toNat ≤ 9 := by
  cases i <;> simp [Instr.opcode]

/-- The raw field of an absent argument is 0. -/
@[simp] theorem fieldOf_zero : fieldOf 0 = 0 := rfl

/-- The raw field of a natural number is its low 12 bits. -/
theorem fieldOf_natCast (n : Nat) : fieldOf n = BitVec.ofNat 12 n := BitVec.ofInt_natCast 12 n

/-- A raw field holds its argument modulo 4096 (R80). -/
theorem toNat_fieldOf (v : Int) : ((fieldOf v).toNat : Int) = v % 4096 := by
  rw [fieldOf, BitVec.toNat_ofInt]; omega

/-- The raw fields of a command are the patterns of its arguments. -/
theorem fields_eq_fieldOf_args (i : Instr) :
    i.fields = (fieldOf (i.args 0), fieldOf (i.args 1), fieldOf (i.args 2), fieldOf (i.args 3), fieldOf (i.args 4)) := by
  cases i
  case rdbyte a =>
    have low : BitVec.ofNat 12 (a % 4096) = BitVec.ofNat 12 a := BitVec.eq_of_toNat_eq (by simp)
    simp only [Instr.fields, Instr.args, Matrix.cons_val, fieldOf_natCast, low, fieldOf_zero]
  all_goals rfl

/-- Each raw field of a command's word is the pattern of the argument it carries. -/
theorem argField_encode (i : Instr) (k : Fin 5) : argField (encode i) k = fieldOf (i.args k) := by
  obtain ⟨-, hfields, -⟩ := encodedFields i
  simp only [fields_eq_fieldOf_args, Prod.mk.injEq] at hfields
  obtain ⟨h0, h1, h2, h3, h4⟩ := hfields
  fin_cases k
  exacts [h0, h1, h2, h3, h4]

/-- A word with the opcode and the argument patterns of a command is the command's word. -/
theorem encode_eq_of_fields {i : Instr} {w : CmdWord} (hop : i.opcode = opField w)
    (hargs : ∀ k, fieldOf (i.args k) = argField w k) : encode i = w := by
  rw [encode, fields_eq_fieldOf_args, hop, hargs, hargs, hargs, hargs, hargs, packWord_fields]

/-- Decoding the word of a well-formed command gives the command back. -/
theorem decode_encode {i : Instr} (h : i.wf = true) : decode (encode i) = .command i := by
  cases i
  case rdbyte a =>
    have ha : a < 2 ^ 24 := by simpa [Instr.wf, fitsAddr] using h
    have haddr : a / 4096 % 4096 * 4096 + a % 4096 = a := by omega
    simp [decode, encode, Instr.opcode, Instr.fields, guardReserved, addrArg, haddr]
  all_goals
    simp only [Instr.wf, Bool.and_eq_true] at h
    simp [decode, encode, Instr.opcode, Instr.fields, guardReserved, signedArg, toInt_fieldOf, h]

/-- What the decoder reads from a word with a command's opcode, before it checks the reserved fields (R72, R75, R78). -/
structure ReadFrom (w : CmdWord) (i : Instr) : Prop where
  opcode : i.opcode = opField w
  wf : i.wf = true
  /-- Each field the command uses is the pattern of its argument. -/
  used : ∀ k ∉ reservedFields (opField w), fieldOf (i.args k) = argField w k
  /-- The arguments a command does not have are 0 (R80). -/
  unused : ∀ k ∈ reservedFields (opField w), i.args k = 0

/-- A word with the opcode 0 or 10 to 15 is illegal for its opcode (R77). -/
theorem decode_of_illegal_opcode {w : CmdWord} (h : opField w = 0 ∨ 10 ≤ (opField w).toNat) :
    decode w = .illegal .opcode := by
  have hout : (opField w).toNat = 0 ∨ 10 ≤ (opField w).toNat := h.imp_left (congrArg BitVec.toNat ·)
  unfold decode
  split
  case h_10 => rfl
  all_goals omega

/-- The address RDBYTE reads has 24 bits, and its two fields are its low and its high 12 bits (R78, R81). -/
theorem addrArg_spec (w : CmdWord) : fitsAddr (addrArg w) = true ∧
    fieldOf ((addrArg w : Int) % 4096) = argField w 0 ∧ fieldOf ((addrArg w : Int) / 4096) = argField w 1 := by
  have h0 := (argField w 0).isLt
  have h1 := (argField w 1).isLt
  have hlow : (addrArg w : Int) % 4096 = (argField w 0).toNat := by unfold addrArg; omega
  have hhigh : (addrArg w : Int) / 4096 = (argField w 1).toNat := by unfold addrArg; omega
  refine ⟨decide_eq_true (by unfold addrArg; omega), ?_, ?_⟩
  · rw [hlow, fieldOf_natCast, BitVec.ofNat_toNat, BitVec.setWidth_eq]
  · rw [hhigh, fieldOf_natCast, BitVec.ofNat_toNat, BitVec.setWidth_eq]

/-- A word with the opcode of a command is that command, once its reserved fields are checked in increasing order
(R75, R79). -/
theorem decode_of_legal_opcode {w : CmdWord} (hlo : 1 ≤ (opField w).toNat) (hhi : (opField w).toNat ≤ 9) :
    ∃ i, decode w = guardReserved w (reservedFields (opField w)) i ∧ ReadFrom w i := by
  obtain ⟨haddr, hlow, hhigh⟩ := addrArg_spec w
  unfold decode
  interval_cases hop : (opField w).toNat
  all_goals
    simp only [reservedFields, hop]
    refine ⟨_, rfl, ?opcode, ?wf, ?used, ?unused⟩
    case opcode => exact BitVec.eq_of_toNat_eq hop.symm
    case wf => simp [Instr.wf, signedArg, fitsField_toInt, haddr]
    case used => simp [Fin.forall_fin_succ, reservedFields, hop, Instr.args, signedArg, fieldOf_toInt, hlow, hhigh]
    case unused => simp [reservedFields, hop, Instr.args]

/-- A word with the opcode of a command whose reserved fields are zero is the word of the command the decoder reads. -/
theorem ReadFrom.encode_eq {w : CmdWord} {i : Instr} (h : ReadFrom w i)
    (hzero : ∀ k ∈ reservedFields (opField w), argField w k = 0) : encode i = w := by
  refine encode_eq_of_fields h.opcode fun k => ?_
  by_cases hk : k ∈ reservedFields (opField w)
  · rw [h.unused k hk, hzero k hk, fieldOf_zero]
  · exact h.used k hk

/-- A word is a command exactly when its opcode is 1 to 9 and its reserved fields are zero (R79). -/
theorem decode_isCommand_iff {w : CmdWord} : (∃ i, decode w = .command i) ↔
    (1 ≤ (opField w).toNat ∧ (opField w).toNat ≤ 9) ∧ ∀ k ∈ reservedFields (opField w), argField w k = 0 := by
  constructor
  · rintro ⟨i, hi⟩
    obtain ⟨hop, hzero⟩ := decode_command_fields hi
    rw [hop]
    exact ⟨legal_opcode i, hzero⟩
  · rintro ⟨⟨hlo, hhi⟩, hzero⟩
    obtain ⟨i, hdec, -⟩ := decode_of_legal_opcode hlo hhi
    exact ⟨i, hdec.trans (guardReserved_eq_command.mpr ⟨hzero, rfl⟩)⟩

/-- The words that decode to a command are exactly the words of well-formed commands. -/
theorem decode_eq_command {w : CmdWord} {i : Instr} : decode w = .command i ↔ i.wf = true ∧ encode i = w := by
  constructor
  · intro h
    obtain ⟨⟨hlo, hhi⟩, hzero⟩ := decode_isCommand_iff.mp ⟨i, h⟩
    obtain ⟨j, hdec, hread⟩ := decode_of_legal_opcode hlo hhi
    obtain ⟨-, rfl⟩ := guardReserved_eq_command.mp (hdec.symm.trans h)
    exact ⟨hread.wf, hread.encode_eq hzero⟩
  · rintro ⟨hwf, rfl⟩
    exact decode_encode hwf

/-- Each argument of a decoded command is the number whose pattern stands in its field. -/
theorem fieldOf_args_of_decode {w : CmdWord} {i : Instr} (h : decode w = .command i) (k : Fin 5) :
    fieldOf (i.args k) = argField w k := by
  obtain ⟨-, rfl⟩ := decode_eq_command.mp h
  exact (argField_encode i k).symm

/-- Every argument of a well-formed command but RDBYTE's address fits a field. -/
theorem fitsField_args {i : Instr} (hwf : i.wf = true) (hi : ∀ a, i ≠ .rdbyte a) (k : Fin 5) :
    fitsField (i.args k) = true := by
  have hzero : fitsField 0 = true := by decide
  cases i
  case rdbyte a => exact absurd rfl (hi a)
  all_goals
    simp only [Instr.wf, Bool.and_eq_true] at hwf
    fin_cases k <;> simp [Instr.args, hwf, hzero]

/-- A field reads as its unsigned value, or as that less 4096 from 2048 on (R72). -/
theorem toInt_argField (a : ArgField) :
    a.toInt = if a.toNat < 2048 then (a.toNat : Int) else (a.toNat : Int) - 4096 := by
  rw [BitVec.toInt_eq_toNat_cond]
  split <;> split <;> omega

end Sys2Proof
end

section
/-! The rows of the opcode table (R79): a row's mask covers the opcode and the reserved fields. -/

namespace Sys2Proof

/-- What a row's mask has in field `k`: ones where the field is reserved, zeros where it is used (R79). -/
def maskField (op : BitVec 4) (k : Fin 5) : ArgField := if k ∈ reservedFields op then BitVec.allOnes 12 else 0

/-- Every row of the decode table has a legal opcode, the match with that opcode and zero fields, and the mask of the opcode
and its reserved fields. -/
theorem decodeTable_row : ∀ r ∈ decodeTable, (1 ≤ r.1.toNat ∧ r.1.toNat ≤ 9) ∧
    r.2.1 = packWord r.1 (0, 0, 0, 0, 0) ∧
    r.2.2 = packWord (BitVec.allOnes 4)
      (maskField r.1 0, maskField r.1 1, maskField r.1 2, maskField r.1 3, maskField r.1 4) := by
  intro r hr
  fin_cases hr <;> exact ⟨by decide, rfl, rfl⟩

/-- An opcode has one row. -/
theorem decodeTable_opcode_inj : ∀ r ∈ decodeTable, ∀ r' ∈ decodeTable, r.1 = r'.1 → r = r' :=
  List.inj_on_of_nodup_map (f := Prod.fst) (l := decodeTable) (by decide)

/-- A masked field is zero exactly when the field is used or zero. -/
theorem and_maskField_eq_zero {op : BitVec 4} {k : Fin 5} {a : ArgField} :
    a &&& maskField op k = 0 ↔ (k ∈ reservedFields op → a = 0) := by
  unfold maskField
  split
  case isTrue hk => rw [BitVec.and_allOnes]; exact ⟨fun h _ => h, fun h => h hk⟩
  case isFalse hk => exact ⟨fun _ h => absurd h hk, fun _ => BitVec.and_zero⟩

/-- A word matches a row exactly when it has the row's opcode and its reserved fields are zero. -/
theorem and_mask_eq_match_iff {r : BitVec 4 × CmdWord × CmdWord} (hr : r ∈ decodeTable) (w : CmdWord) :
    w &&& r.2.2 = r.2.1 ↔ opField w = r.1 ∧ ∀ k ∈ reservedFields r.1, argField w k = 0 := by
  obtain ⟨-, hmatch, hmask⟩ := decodeTable_row r hr
  rw [hmatch, hmask, ← packWord_fields w, packWord_and, packWord_inj, packWord_fields]
  simp only [BitVec.and_allOnes, and_maskField_eq_zero, Fin.forall_fin_succ]
  simp

/-- Settles O4: the mask of a row covers its opcode and its reserved fields. -/
theorem wordIsACommandExactlyWhenItsRowMatches : Obligations.WordIsACommandExactlyWhenItsRowMatches := by
  intro w
  refine ⟨?row, ?disjoint, decode_isCommand_iff, ?illegal⟩
  case row =>
    intro op m mask hr
    rw [and_mask_eq_match_iff hr]
    constructor
    · rintro ⟨i, hi, rfl⟩
      exact decode_command_fields hi
    · rintro ⟨rfl, hzero⟩
      obtain ⟨hlegal, -⟩ := decodeTable_row _ hr
      obtain ⟨i, hi⟩ := decode_isCommand_iff.mpr ⟨hlegal, hzero⟩
      exact ⟨i, hi, (decode_command_fields hi).1.symm⟩
  case disjoint =>
    intro r hr r' hr' h h'
    obtain ⟨hop, -⟩ := (and_mask_eq_match_iff hr w).mp h
    obtain ⟨hop', -⟩ := (and_mask_eq_match_iff hr' w).mp h'
    exact decodeTable_opcode_inj r hr r' hr' (hop.symm.trans hop')
  case illegal => cases decode w <;> simp

end Sys2Proof
end

section
/-! Illegal words (R76, R77): the lowest-numbered nonzero reserved field is reported, or the opcode. -/

namespace Sys2Proof.Machine

/-- The reserved fields of an opcode are listed in increasing order. -/
theorem reservedFields_sorted (op : BitVec 4) : (reservedFields op).Pairwise (· < ·) := by
  revert op; decide

/-- An opcode with a reserved field is a command's. -/
theorem legal_of_mem_reservedFields {op : BitVec 4} {k : Fin 5} (hk : k ∈ reservedFields op) :
    1 ≤ op.toNat ∧ op.toNat ≤ 9 := by
  revert op k; decide

/-- A word is illegal for its lowest-numbered nonzero reserved field (R76). -/
theorem decode_of_nonzero_reserved {w : CmdWord} {k : Fin 5} (hk : k ∈ reservedFields (opField w))
    (hne : argField w k ≠ 0) (hlow : ∀ j ∈ reservedFields (opField w), j < k → argField w j = 0) :
    decode w = .illegal (.reserved k) := by
  obtain ⟨hlo, hhi⟩ := legal_of_mem_reservedFields hk
  obtain ⟨i, hdec, -⟩ := decode_of_legal_opcode hlo hhi
  obtain ⟨before, after, hsplit⟩ := List.append_of_mem hk
  have hbefore : ∀ j ∈ before, j < k := fun j hj =>
    (List.pairwise_append.mp (hsplit ▸ reservedFields_sorted (opField w))).2.2 j hj k List.mem_cons_self
  refine hdec.trans (guardReserved_eq_illegal.mpr ⟨before, k, after, hsplit, fun j hj => ?_, hne, rfl⟩)
  exact hlow j (hsplit ▸ List.mem_append_left _ hj) (hbefore j hj)

/-- A step of a reset block whose next input is an illegal word only reports it. -/
theorem step_illegal {s : State} {w : CmdWord} {rest : List HostInput} {e : Illegal} (hreset : s.wasReset = true)
    (hhost : s.host = .command w :: rest) (hd : decode w = .illegal e) :
    step s = .next { s with host := rest, frameOut := none, status := 2, errarg := e.errarg, result := 0 } :=
  (step_command hreset hhost).trans (runWord_illegal hd _)

/-- Settles O8: such a word decodes to no command, for its opcode. -/
theorem illegalOpcodesReportSeven : Obligations.IllegalOpcodesReportSeven := by
  refine ⟨fun w i h => ?_, fun s w rest hreset hhost hop => step_illegal hreset hhost (decode_of_illegal_opcode hop)⟩
  rw [(decode_command_fields h).1]
  cases i <;> rfl

/-- Settles O9: the decoder checks the reserved fields in increasing order. -/
theorem nonzeroReservedFieldReportsTheLowest : Obligations.NonzeroReservedFieldReportsTheLowest :=
  fun _ _ _ _ hreset hhost ⟨hk, hne⟩ hlow => step_illegal hreset hhost (decode_of_nonzero_reserved hk hne hlow)

end Sys2Proof.Machine
end

section
/-! The words of the commands and their arguments (R72, R78, R80). -/

namespace Sys2Proof.Machine

/-- Settles O1, by the constructor of the command. -/
theorem decodingAnEncodedCommandGivesItBack : Obligations.DecodingAnEncodedCommandGivesItBack :=
  fun _ => decode_encode

/-- Settles O2, by what the decoder reads from a word with a legal opcode. -/
theorem encodingADecodedWordGivesItBack : Obligations.EncodingADecodedWordGivesItBack :=
  fun _ _ => decode_eq_command.mp

/-- Settles O3: the packed word is the sum of its shifted fields, and each field is its argument modulo 4096. -/
theorem encodedWordIsTheSumOfItsFields : Obligations.EncodedWordIsTheSumOfItsFields := by
  refine ⟨fun i _ => ?_, by decide, by decide⟩
  rw [encode, fields_eq_fieldOf_args, toNat_packWord]
  push_cast
  simp only [toNat_fieldOf]

/-- Settles O5: the argument fits its field, so the field's pattern reads as the argument. -/
theorem decodedArgumentsAreSignExtendedFields : Obligations.DecodedArgumentsAreSignExtendedFields := by
  intro w i k h hi
  obtain ⟨hwf, -⟩ := decode_eq_command.mp h
  have hfield : (argField w k).toNat = w.toNat / 2 ^ (48 - 12 * k.val) % 4096 := toNat_argField w k
  calc i.args k = (fieldOf (i.args k)).toInt := (toInt_fieldOf (fitsField_args hwf hi k)).symm
    _ = (argField w k).toInt := by rw [fieldOf_args_of_decode h]
    _ = _ := by rw [toInt_argField, hfield]

/-- Settles O6: the two fields are the low and the high 12 bits of the address, and the only check is its bound. -/
theorem rdbyteAddressIsTheTwoRawFields : Obligations.RdbyteAddressIsTheTwoRawFields := by
  intro w addr h
  obtain ⟨hwf, hw⟩ := decode_eq_command.mp h
  have haddr : addr < 2 ^ 24 := of_decide_eq_true hwf
  have hlow : (argField w 0).toNat = addr % 4096 := by
    rw [← hw, encode, Instr.fields, argField_packWord_zero, BitVec.toNat_ofNat]
  have hhigh : (argField w 1).toNat = addr / 4096 % 4096 := by
    rw [← hw, encode, Instr.fields, argField_packWord_one, BitVec.toNat_ofNat]
  have h0 : (argField w 0).toNat = w.toNat / 2 ^ 48 % 4096 := toNat_argField w 0
  have h1 : (argField w 1).toNat = w.toNat / 2 ^ 36 % 4096 := toNat_argField w 1
  refine ⟨by rw [← h0, ← h1]; omega, haddr, fun s => ?_⟩
  by_cases hlt : addr < s.cfg.nbytes
  · exact ⟨_, exec_of_checks_pass (checkAddr_eq_none.mpr hlt), iff_of_true rfl hlt⟩
  · have hfail : checksOf (.rdbyte addr) s.cfg = some ⟨statusArgOutOfRange, 0⟩ := if_neg hlt
    exact ⟨_, exec_of_check_fails hfail, iff_of_false (by rw [State.raiseError_status]; decide) hlt⟩

/-- Settles O7, by running the decoder on each word. -/
theorem wordsWrittenFromTheEncodingDecode : Obligations.WordsWrittenFromTheEncodingDecode := by
  unfold Obligations.WordsWrittenFromTheEncodingDecode
  decide

end Sys2Proof.Machine
end

section
/-! The assembler (R81) and its pseudo-instruction `cls` (R82). -/

namespace Sys2Proof.Machine

/-- Settles O55, by running the assembler on each line. -/
theorem assemblerGivesTheWorkedWords : Obligations.AssemblerGivesTheWorkedWords := by
  unfold Obligations.AssemblerGivesTheWorkedWords
  decide

/-- `cls(c)` with an index in range passes its checks on every legal grid. -/
theorem checksOf_clsInstr {cfg : Config} (hcfg : cfg.Legal) {c : Int} (hc : 0 ≤ c ∧ c < 16) :
    checksOf (clsInstr cfg c) cfg = none := by
  obtain ⟨hw, -, hh, -⟩ := hcfg
  exact checkEndpoints_eq_none.mpr ⟨by omega, by omega, by omega, by omega, hc⟩

/-- The rows of the rectangle that `cls(c)` fills cover every pixel of the grid. -/
theorem nibRead_clsInstr {s : State} (hwf : s.fb.wf = true) (c : Int) {p : Nat} (hp : p < s.cfg.npix) :
    nibRead (drawnFb (clsInstr s.cfg c) s) p = indexOf c := by
  obtain ⟨hx, hy, hpos⟩ := (pixelPositionsAreABijection s.cfg).2 p hp
  generalize p % s.cfg.w = x at hx hpos
  generalize p / s.cfg.w = y at hy hpos
  have hfirst : pixelPos s.cfg 0 y = y * s.cfg.w := by simpa using pixelPos_natCast s.cfg 0 y
  have hlast : pixelPos s.cfg (s.cfg.w - 1) y = (s.cfg.w - 1) + y * s.cfg.w := by
    rw [← pixelPos_natCast, Nat.cast_sub (by omega), Nat.cast_one]
  rw [pixelPos_natCast] at hpos
  rw [clsInstr, drawnFb, fillRect, nibRead_fillRows _ _ _ _ _ _ hwf, if_pos]
  exact ⟨y, by omega, by omega, by omega, by omega⟩

/-- Settles O41: inside the grid every pixel takes the index, outside it no command writes. -/
theorem clsClearsTheWholeGrid : Obligations.ClsClearsTheWholeGrid := by
  intro s c hwf hcfg hc
  have hchecks := checksOf_clsInstr hcfg hc
  refine ⟨rfl, succeeded (clsInstr s.cfg c) s, exec_of_checks_pass hchecks, rfl, fun p hp => ?_, fun p hp => ?_⟩
  · exact (congrArg (fun v : Index => (v.toNat : Int)) (nibRead_clsInstr hwf c hp)).trans (toNat_indexOf hc)
  · exact nibRead_drawnFb_outside hwf hchecks hp

end Sys2Proof.Machine
end

section
/-! The pixel buffer's own commands (R104, R105, R110): PSET, PGET and RDBYTE with in-range arguments complete, and PGET reads
back what PSET set (R103). -/

namespace Sys2Proof.Machine

/-- The checks of PSET pass exactly when the pixel and the index are in range. -/
theorem checksOf_pset_eq_none {cfg : Config} {x y c : Int} :
    checksOf (.pset x y c) cfg = none ↔ (0 ≤ x ∧ x < cfg.w) ∧ (0 ≤ y ∧ y < cfg.h) ∧ (0 ≤ c ∧ c < 16) := by
  simp [checksOf, firstFailure_eq_none, checkX, checkY, checkIndex, checkRange_eq_none]

/-- The checks of PGET pass exactly when the pixel is in range. -/
theorem checksOf_pget_eq_none {cfg : Config} {x y : Int} :
    checksOf (.pget x y) cfg = none ↔ (0 ≤ x ∧ x < cfg.w) ∧ (0 ≤ y ∧ y < cfg.h) := by
  simp [checksOf, firstFailure_eq_none, checkX, checkY, checkRange_eq_none]

/-- Different in-range pixels have different positions: the bijection of R52 gives the coordinates back. -/
theorem pixelPos_inj {cfg : Config} {x y u v : Int} (hx : 0 ≤ x ∧ x < cfg.w) (hy : 0 ≤ y ∧ y < cfg.h)
    (hu : 0 ≤ u ∧ u < cfg.w) (hv : 0 ≤ v ∧ v < cfg.h) (h : pixelPos cfg u v = pixelPos cfg x y) : u = x ∧ v = y := by
  lift x to ℕ using hx.1
  lift y to ℕ using hy.1
  lift u to ℕ using hu.1
  lift v to ℕ using hv.1
  obtain ⟨-, -, -, hxmod, hydiv⟩ := (pixelPositionsAreABijection cfg).1 x y (by omega) (by omega)
  obtain ⟨-, -, -, humod, hvdiv⟩ := (pixelPositionsAreABijection cfg).1 u v (by omega) (by omega)
  rw [h] at humod hvdiv
  omega

/-- The value of a byte is that of its nibbles in base 16 (R102). -/
theorem toNat_packByte (hi lo : Index) : (packByte hi lo).toNat = hi.toNat * 16 + lo.toNat := toNat_append_eq hi lo

/-- Settles O31: PSET is one nibble write, which sets its pixel and keeps the other pixels and the other bytes. -/
theorem psetWritesExactlyOnePixel : Obligations.PsetWritesExactlyOnePixel := by
  intro s x y c hwf hx hy hc
  refine ⟨drawnFb (.pset x y c) s, exec_of_checks_pass (checksOf_pset_eq_none.mpr ⟨hx, hy, hc⟩), ?pixel, ?pixels, ?bytes⟩
  case pixel =>
    rw [drawnFb, nibRead_nibWrite_eq hwf, if_pos rfl, toNat_indexOf hc]
  case pixels =>
    intro q hq
    rw [drawnFb, nibRead_nibWrite_eq hwf, if_neg hq]
  case bytes =>
    intro a ha
    exact read_nibWrite_other hwf _ _ ha

/-- Settles O32: the range checks pass, and PGET writes the response only. -/
theorem pgetReturnsThePixel : Obligations.PgetReturnsThePixel := by
  intro s x y hx hy
  rw [BitVec.ofNat_toNat]
  exact exec_of_checks_pass (checksOf_pget_eq_none.mpr ⟨hx, hy⟩)

/-- Settles O33: PGET returns the pixel (O32) of the buffer that PSET leaves (O31), and pixels have distinct positions. -/
theorem psetThenPgetReadsBack : Obligations.PsetThenPgetReadsBack := by
  intro s x y c u v hwf hx hy hc hu hv
  obtain ⟨fb, hset, hpixel, hothers, -⟩ := psetWritesExactlyOnePixel s x y c hwf hx hy hc
  refine ⟨_, _, _, hset, pgetReturnsThePixel _ u v hu hv, pgetReturnsThePixel s u v hu hv, ?same, ?other⟩
  case same =>
    rintro ⟨rfl, rfl⟩
    rw [BitVec.ofNat_toNat, BitVec.toNat_setWidth_of_le (by decide)]
    exact hpixel
  case other =>
    intro hne
    have hpos : pixelPos s.cfg u v ≠ pixelPos s.cfg x y := fun h => hne (pixelPos_inj hx hy hu hv h)
    exact congrArg (fun i : Index => BitVec.ofNat 32 i.toNat) (hothers _ hpos)

/-- Settles O34: the byte is zero-extended, and it packs the pixels at positions `2 * addr` and `2 * addr + 1`. -/
theorem rdbyteReturnsBothPixelsOfTheByte : Obligations.RdbyteReturnsBothPixelsOfTheByte := by
  intro s addr haddr
  have hbyte : (readResult (.rdbyte addr) s).toNat = (s.fb.read addr).toNat :=
    BitVec.toNat_setWidth_of_le (by decide)
  refine ⟨readResult (.rdbyte addr) s, exec_of_checks_pass (checkAddr_eq_none.mpr haddr), hbyte, ?_⟩
  rw [hbyte, read_eq_packByte, toNat_packByte]

end Sys2Proof.Machine
end

section
/-! The run fill (R120 to R126) and the commands built on it: it paints the positions of its run, so it equals single-nibble
writes of them in any order, and SPAN and RECTFILL coincide where they fill the same runs (R127, R140). -/

namespace Sys2Proof.Machine

/-- The order of a run's endpoints does not matter (R121). -/
theorem fillRun_comm (fb : Memory) (p q : Nat) (c : Index) : fillRun fb p q c = fillRun fb q p c := by
  simp only [fillRun, min_comm p q, max_comm p q]

/-- A run of one pixel takes the odd-start path or the even-end path, and its interior is empty (R125). -/
theorem fillRun_self (fb : Memory) (p : Nat) (c : Index) : fillRun fb p p c = nibWrite fb p c := by
  rcases Nat.mod_two_eq_zero_or_one p with hp | hp <;> simp [fillRun, hp, Memory.fill]

/-- A run of two pixels from an odd start takes both single-nibble paths, and its interior is empty (R125). -/
theorem fillRun_odd_pair {p : Nat} (hp : p % 2 = 1) (fb : Memory) (c : Index) :
    fillRun fb p (p + 1) c = nibWrite (nibWrite fb p c) (p + 1) c := by
  have hend : (p + 1) % 2 = 0 := by omega
  simp [fillRun, hp, hend, Memory.fill]

/-- Settles O36: in each case the interior of the run is empty. -/
theorem shortRunsAreSingleNibbleWrites : Obligations.ShortRunsAreSingleNibbleWrites :=
  fun fb p q c => ⟨fillRun_self fb p c, fun hp => fillRun_odd_pair hp fb c, fillRun_comm fb p q c⟩

/-- Single-nibble writes keep the canonical form. -/
theorem wf_foldl_nibWrite (c : Index) (order : List Nat) : ∀ {fb : Memory}, fb.wf = true →
    (order.foldl (fun m q => nibWrite m q c) fb).wf = true := by
  induction order with
  | nil => exact id
  | cons p order ih => exact fun h => ih (wf_nibWrite h p c)

/-- Single-nibble writes of one colour set exactly the listed positions, so their order does not matter. -/
theorem nibRead_foldl_nibWrite (c : Index) (order : List Nat) : ∀ {fb : Memory}, fb.wf = true → ∀ q,
    nibRead (order.foldl (fun m q => nibWrite m q c) fb) q = if q ∈ order then c else nibRead fb q := by
  induction order with
  | nil => intro fb _ q; rfl
  | cons p order ih =>
    intro fb h q
    rw [List.foldl_cons, ih (wf_nibWrite h p c), nibRead_nibWrite_eq h]
    by_cases hq : q ∈ order
    · rw [if_pos hq, if_pos (List.mem_cons_of_mem p hq)]
    · simp only [hq, List.mem_cons, or_false, if_false]

/-- The positions of an inclusive run, listed in any order. -/
theorem mem_run_order {lo hi : Nat} {order : List Nat} (hle : lo ≤ hi)
    (hperm : order.Perm (List.range' lo (hi + 1 - lo))) {q : Nat} : q ∈ order ↔ lo ≤ q ∧ q ≤ hi := by
  rw [hperm.mem_iff, List.mem_range'_1]
  omega

/-- Settles O35: the run fill and the single-nibble writes paint the same positions, and equal pixels are equal data. -/
theorem runFillEqualsPixelWritesInAnyOrder : Obligations.RunFillEqualsPixelWritesInAnyOrder := by
  intro fb p1 p2 c hwf
  refine ⟨?inside, ?outside, ?order⟩
  case inside =>
    intro q hlo hhi
    rw [nibRead_fillRun hwf, if_pos ⟨hlo, hhi⟩]
  case outside =>
    intro q hq
    rw [nibRead_fillRun hwf, if_neg (by omega)]
  case order =>
    intro order hperm
    refine fb_ext (wf_fillRun hwf _ _ _) (wf_foldl_nibWrite c order hwf) fun q => ?_
    simp only [nibRead_fillRun hwf, nibRead_foldl_nibWrite c order hwf, mem_run_order min_le_max hperm]

/-- Settles O37: the range checks pass, and SPAN is one run fill (O35); a byte outside the run's bytes holds no pixel of the
run. -/
theorem spanFillsExactlyTheRun : Obligations.SpanFillsExactlyTheRun := by
  intro s x1 y1 x2 y2 c hwf hx1 hy1 hx2 hy2 hc lo hi
  obtain ⟨hinside, houtside, -⟩ :=
    runFillEqualsPixelWritesInAnyOrder s.fb (pixelPos s.cfg x1 y1) (pixelPos s.cfg x2 y2) (indexOf c) hwf
  refine ⟨drawnFb (.span x1 y1 x2 y2 c) s,
    exec_of_checks_pass (checkEndpoints_eq_none.mpr ⟨hx1, hy1, hx2, hy2, hc⟩), ?run, houtside, ?bytes⟩
  case run =>
    intro q hlo hhi
    rw [drawnFb, hinside q hlo hhi, toNat_indexOf hc]
  case bytes =>
    intro a ha
    exact read_eq_of_nibRead_eq (houtside _ (by omega)) (houtside _ (by omega))

/-! ### Commands that coincide -/

/-- Two commands with the same checks and the same effect on each store and port have the same outcome. -/
theorem exec_congr {i j : Instr} {s : State} (hchecks : checksOf i s.cfg = checksOf j s.cfg)
    (hfb : drawnFb i s = drawnFb j s) (hpal : writtenPal i s = writtenPal j s)
    (hresult : readResult i s = readResult j s) (hframe : emittedFrame i s = emittedFrame j s) :
    exec i s = exec j s := by
  rw [exec_eq_finish, exec_eq_finish, hchecks, succeeded, succeeded, hfb, hpal, hresult, hframe]

/-- With both endpoints in range only the check of the colour index is left. -/
theorem checkEndpoints_of_inRange {cfg : Config} {x1 y1 x2 y2 : Int} (hx1 : 0 ≤ x1 ∧ x1 < cfg.w)
    (hy1 : 0 ≤ y1 ∧ y1 < cfg.h) (hx2 : 0 ≤ x2 ∧ x2 < cfg.w) (hy2 : 0 ≤ y2 ∧ y2 < cfg.h) (c : Int) :
    checkEndpoints cfg x1 y1 x2 y2 c = firstFailure [checkIndex 4 c] := by
  simp only [checkEndpoints, checkX, checkY, checkRange_eq_none.mpr hx1, checkRange_eq_none.mpr hy1,
    checkRange_eq_none.mpr hx2, checkRange_eq_none.mpr hy2, firstFailure_none]

/-- A rectangle of one row is one run (R141). -/
theorem fillRect_one_row (cfg : Config) (x1 x2 y : Int) (c : Index) (fb : Memory) :
    fillRect cfg x1 y x2 y c fb = fillRun fb (pixelPos cfg x1 y) (pixelPos cfg x2 y) c := by
  have hrows : (max y y - min y y + 1).toNat = 1 := by omega
  rw [fillRect, hrows, min_self, fillRows, fillRows]

/-- The row loop's two columns may be given in either order, since each row's endpoints may (R121). -/
theorem fillRows_swap_columns (cfg : Config) (x1 x2 : Int) (c : Index) (n : Nat) : ∀ (y : Int) (fb : Memory),
    fillRows cfg x1 x2 c n y fb = fillRows cfg x2 x1 c n y fb := by
  induction n with
  | zero => exact fun _ _ => rfl
  | succ n ih => intro y fb; rw [fillRows, fillRows, fillRun_comm, ih]

/-- A one-row RECTFILL is a SPAN (R140). -/
theorem exec_rectfill_one_row (s : State) (x1 x2 y c : Int) :
    exec (.rectfill x1 y x2 y c) s = exec (.span x1 y x2 y c) s :=
  exec_congr rfl (fillRect_one_row s.cfg x1 x2 y (indexOf c) s.fb) rfl rfl rfl

/-- A one-pixel SPAN is a PSET (R127). -/
theorem exec_span_one_pixel {s : State} {x y c : Int} (hx : 0 ≤ x ∧ x < s.cfg.w) (hy : 0 ≤ y ∧ y < s.cfg.h)
    (hc : 0 ≤ c ∧ c < 16) : exec (.span x y x y c) s = exec (.pset x y c) s := by
  have hspan : checksOf (.span x y x y c) s.cfg = none := checkEndpoints_eq_none.mpr ⟨hx, hy, hx, hy, hc⟩
  have hpset : checksOf (.pset x y c) s.cfg = none := checksOf_pset_eq_none.mpr ⟨hx, hy, hc⟩
  exact exec_congr (hspan.trans hpset.symm) (fillRun_self s.fb _ _) rfl rfl rfl

/-- Settles O40: in each case both commands leave the same check to fail and fill the same runs. -/
theorem specialRunsAndRectanglesCoincide : Obligations.SpecialRunsAndRectanglesCoincide := by
  refine ⟨?onePixel, exec_rectfill_one_row, ?swap⟩
  case onePixel =>
    intro s x y c hx hy hc
    have hspan := exec_span_one_pixel hx hy hc
    exact ⟨hspan, (exec_rectfill_one_row s x x y c).trans hspan⟩
  case swap =>
    intro s x1 y1 x2 y2 c hx1 hy1 hx2 hy2
    constructor
    · refine exec_congr ?_ (fillRows_swap_columns s.cfg x1 x2 _ _ _ _) rfl rfl rfl
      exact (checkEndpoints_of_inRange hx1 hy1 hx2 hy2 c).trans (checkEndpoints_of_inRange hx2 hy1 hx1 hy2 c).symm
    · have hrows : drawnFb (.rectfill x1 y1 x2 y2 c) s = drawnFb (.rectfill x1 y2 x2 y1 c) s := by
        simp only [drawnFb, fillRect, min_comm y1 y2, max_comm y1 y2]
      refine exec_congr ?_ hrows rfl rfl rfl
      exact (checkEndpoints_of_inRange hx1 hy1 hx2 hy2 c).trans (checkEndpoints_of_inRange hx1 hy2 hx2 hy1 c).symm

end Sys2Proof.Machine
end

section
/-! The rectangle fill (R140 to R143): the run of each row holds the row's pixels between the two columns, so the row loop
paints the rectangle, and a PRESENT that follows shows it. -/

namespace Sys2Proof.Machine

/-- The run between two pixels of one row holds exactly the positions of the row's pixels from one column to the other. -/
theorem mem_rowRun_iff {cfg : Config} {x1 x2 y : Int} (hx1 : 0 ≤ x1) (hx2 : 0 ≤ x2) (hy : 0 ≤ y) {q : Nat} :
    (min (pixelPos cfg x1 y) (pixelPos cfg x2 y) ≤ q ∧ q ≤ max (pixelPos cfg x1 y) (pixelPos cfg x2 y)) ↔
      ∃ x, (min x1 x2 ≤ x ∧ x ≤ max x1 x2) ∧ q = pixelPos cfg x y := by
  have hpos1 := pixelPos_eq (c := cfg) hx1 hy
  have hpos2 := pixelPos_eq (c := cfg) hx2 hy
  constructor
  · intro hq
    have hpos := pixelPos_eq (c := cfg) (x := q - y * cfg.w) (y := y) (by omega) hy
    exact ⟨q - y * cfg.w, by omega, by omega⟩
  · rintro ⟨x, hx, rfl⟩
    have hpos := pixelPos_eq (c := cfg) (x := x) (y := y) (by omega) hy
    omega

open Classical in
/-- The rectangle fill sets exactly the pixels of the inclusive rectangle (R143). -/
theorem nibRead_fillRect {cfg : Config} {x1 y1 x2 y2 : Int} (hx1 : 0 ≤ x1) (hy1 : 0 ≤ y1) (hx2 : 0 ≤ x2) (hy2 : 0 ≤ y2)
    (c : Index) {fb : Memory} (hwf : fb.wf = true) (q : Nat) :
    nibRead (fillRect cfg x1 y1 x2 y2 c fb) q =
      if ∃ x y, InRect x1 y1 x2 y2 x y ∧ q = pixelPos cfg x y then c else nibRead fb q := by
  rw [fillRect, nibRead_fillRows _ _ _ _ _ _ hwf]
  refine if_congr ⟨?rows, ?rectangle⟩ rfl rfl
  case rows =>
    rintro ⟨y, hy, hyn, hq⟩
    obtain ⟨x, ⟨hxl, hxu⟩, hpos⟩ := (mem_rowRun_iff hx1 hx2 (by omega)).mp hq
    exact ⟨x, y, ⟨hxl, hxu, hy, by omega⟩, hpos⟩
  case rectangle =>
    rintro ⟨x, y, ⟨hxl, hxu, hyl, hyu⟩, hpos⟩
    exact ⟨y, hyl, by omega, (mem_rowRun_iff hx1 hx2 (by omega)).mpr ⟨x, ⟨hxl, hxu⟩, hpos⟩⟩

/-- Settles O38: the range checks pass, and RECTFILL paints the rectangle; a byte that holds no pixel of it keeps both of its
pixels. -/
theorem rectfillFillsExactlyTheRectangle : Obligations.RectfillFillsExactlyTheRectangle := by
  intro s x1 y1 x2 y2 c hwf hx1 hy1 hx2 hy2 hc
  have hpaint := nibRead_fillRect (cfg := s.cfg) hx1.1 hy1.1 hx2.1 hy2.1 (indexOf c) hwf
  have houtside : ∀ q, (∀ x y, InRect x1 y1 x2 y2 x y → q ≠ pixelPos s.cfg x y) →
      nibRead (drawnFb (.rectfill x1 y1 x2 y2 c) s) q = nibRead s.fb q := by
    intro q hq
    rw [drawnFb, hpaint, if_neg]
    rintro ⟨x, y, hxy, hpos⟩
    exact hq x y hxy hpos
  refine ⟨drawnFb (.rectfill x1 y1 x2 y2 c) s,
    exec_of_checks_pass (checkEndpoints_eq_none.mpr ⟨hx1, hy1, hx2, hy2, hc⟩), ?rectangle, houtside, ?bytes⟩
  case rectangle =>
    intro x y hxy
    rw [drawnFb, hpaint, if_pos ⟨x, y, hxy, rfl⟩, toNat_indexOf hc]
  case bytes =>
    intro a ha
    refine read_eq_of_nibRead_eq (houtside _ fun x y hxy hpos => ?_) (houtside _ fun x y hxy hpos => ?_)
    all_goals exact ha x y hxy (by omega)

/-! ### The frame of a PRESENT after RECTFILL -/

@[simp] theorem length_frameOf (cfg : Config) (fb : Memory) (pal : Palette) : (frameOf cfg fb pal).length = cfg.npix := by
  simp [frameOf]

/-- Element `p` of a frame is the colour of the pixel at position `p` (R200). -/
theorem getElem?_frameOf {cfg : Config} {p : Nat} (hp : p < cfg.npix) (fb : Memory) (pal : Palette) :
    (frameOf cfg fb pal)[p]? = some (lookup pal (nibRead fb p)) := by
  simp [frameOf, hp]

/-- A pixel with the value of a colour index is that index. -/
theorem eq_ofNat_of_toNat_eq {i : Index} {c : Int} (h : (i.toNat : Int) = c) : i = BitVec.ofNat 4 c.toNat := by
  rw [← h, Int.toNat_natCast, BitVec.ofNat_toNat, BitVec.setWidth_eq]

/-- Settles O39: the frame scans the buffer that RECTFILL leaves (O38), and pixels outside the rectangle have positions of
their own. -/
theorem presentAfterRectfillShowsTheRectangle : Obligations.PresentAfterRectfillShowsTheRectangle := by
  intro s x1 y1 x2 y2 c hwf hx1 hy1 hx2 hy2 hc
  obtain ⟨fb, hfill, hinside, houtside, -⟩ := rectfillFillsExactlyTheRectangle s x1 y1 x2 y2 c hwf hx1 hy1 hx2 hy2 hc
  refine ⟨_, _, frameOf s.cfg fb s.pal, hfill, rfl, rfl, hinside, houtside, exec_of_checks_pass rfl, rfl,
    length_frameOf s.cfg fb s.pal, ?_⟩
  intro x y hx hy
  rw [getElem?_frameOf (pixelPos_lt (by omega) (by omega))]
  by_cases hxy : InRect x1 y1 x2 y2 x y
  · rw [if_pos hxy, eq_ofNat_of_toNat_eq (hinside x y hxy)]
  · rw [if_neg hxy, houtside]
    rintro u v ⟨hul, huu, hvl, hvu⟩ hpos
    obtain ⟨rfl, rfl⟩ := pixelPos_inj (by omega) (by omega) (by omega) (by omega) hpos
    exact hxy ⟨hul, huu, hvl, hvu⟩

end Sys2Proof.Machine
end

section
/-! The line rasterizer (R160 to R167), from what the loop plots (`segmentPlots_bresenham`): its course, its bounds, what LINE
paints, and the straight lines, whose error term never changes. -/

namespace Sys2Proof.Machine

/-! ### The course of the loop (R161 to R165, R167) -/

/-- Settles O43: it is the head and the step of what the loop plots. -/
theorem linePointsFollowTheBresenhamStep : Obligations.LinePointsFollowTheBresenhamStep :=
  fun x1 y1 x2 y2 => ⟨(segmentPlots_bresenham x1 y1 x2 y2).head, (segmentPlots_bresenham x1 y1 x2 y2).step⟩

/-- LINE with in-range arguments passes its checks and has its whole effect. -/
theorem exec_line {s : State} {x1 y1 x2 y2 c : Int} (hx1 : 0 ≤ x1 ∧ x1 < s.cfg.w) (hy1 : 0 ≤ y1 ∧ y1 < s.cfg.h)
    (hx2 : 0 ≤ x2 ∧ x2 < s.cfg.w) (hy2 : 0 ≤ y2 ∧ y2 < s.cfg.h) (hc : 0 ≤ c ∧ c < 16) :
    exec (.line x1 y1 x2 y2 c) s = .next { s with
      fb := plotAll s.cfg (indexOf c) (bresenham x1 y1 x2 y2) s.fb, status := 0, errarg := 0, result := 0 } :=
  exec_of_checks_pass (checkEndpoints_eq_none.mpr ⟨hx1, hy1, hx2, hy2, hc⟩)

/-- Settles O42: what the loop plots between the endpoints of R161, and the plots as LINE's nibble writes. -/
theorem lineLoopEndsAtItsEndPoint : Obligations.LineLoopEndsAtItsEndPoint := by
  intro cfg x1 y1 x2 y2 hx1 hy1 hx2 hy2 ps dx dy
  have course := segmentPlots_bresenham x1 y1 x2 y2
  refine ⟨?length, course.nodup, ?start, course.last, course.adjacent, ?box, ?writes⟩
  case length => rw [neg_neg]; exact course.length
  case start => rw [course.head]; rfl
  case box =>
    intro p hp
    have hrect := inRect_of_mem_bresenham hp
    obtain ⟨-, -, hlo, hhi⟩ := course.box p hp
    exact ⟨hrect, pixelPos_lt_of_inRect hx1 hy1 hx2 hy2 hrect, by rwa [mul_neg, ← neg_mul], hhi⟩
  case writes =>
    rintro s c rfl hc
    rw [exec_line hx1 hy1 hx2 hy2 hc, eq_ofNat_of_toNat_eq (toNat_indexOf hc)]
    rfl

/-- Settles O47: every plot is in the bounding box with a bounded error term, and the endpoints differ by at most
`W - 1` and `H - 1`. -/
theorem lineRegistersNeverOverflow : Obligations.LineRegistersNeverOverflow := by
  intro cfg x1 y1 x2 y2 hcfg hx1 hy1 hx2 hy2 p hp
  obtain ⟨hxl, hxu, hyl, hyu⟩ := inRect_of_mem_bresenham hp
  obtain ⟨-, -, hlo, hhi⟩ := (segmentPlots_bresenham x1 y1 x2 y2).box p hp
  have hdx : |x2 - x1| ≤ cfg.w - 1 := abs_le.mpr (by omega)
  have hdy : |y2 - y1| ≤ cfg.h - 1 := abs_le.mpr (by omega)
  exact ⟨by omega, by omega, by omega, by omega, abs_le.mpr (by omega)⟩

/-- Settles O46, by plotting R165's line in both directions. -/
theorem lineIsNotSymmetricInItsEndpoints : Obligations.LineIsNotSymmetricInItsEndpoints := by
  unfold Obligations.LineIsNotSymmetricInItsEndpoints
  decide

/-! ### What LINE paints (R160, R164) -/

/-- Settles O44: LINE paints the positions of its plots; a byte that holds none of them keeps both of its pixels. -/
theorem lineSetsExactlyItsPoints : Obligations.LineSetsExactlyItsPoints := by
  intro s x1 y1 x2 y2 c hwf hx1 hy1 hx2 hy2 hc
  have hpaint := nibRead_plotAll s.cfg (indexOf c) (bresenham x1 y1 x2 y2) hwf
  have houtside : ∀ q, (∀ p ∈ bresenham x1 y1 x2 y2, q ≠ pixelPos s.cfg p.x p.y) →
      nibRead (plotAll s.cfg (indexOf c) (bresenham x1 y1 x2 y2) s.fb) q = nibRead s.fb q := by
    intro q hq
    rw [hpaint, if_neg]
    intro hmem
    obtain ⟨p, hp, hpos⟩ := List.mem_map.mp hmem
    exact hq p hp hpos.symm
  refine ⟨_, exec_line hx1 hy1 hx2 hy2 hc, ?points, houtside, ?bytes⟩
  case points =>
    intro p hp
    rw [hpaint, if_pos (List.mem_map_of_mem hp), toNat_indexOf hc]
  case bytes =>
    intro a ha
    refine read_eq_of_nibRead_eq (houtside _ fun p hp hpos => ?_) (houtside _ fun p hp hpos => ?_)
    all_goals exact ha p hp (by omega)

/-! ### Straight lines (corner cases of R160) -/

/-- `a` and `b` are the absolute values of a unit step of a straight direction: horizontal, vertical or 45 degrees. -/
abbrev StraightUnit (a b : Int) : Prop := (a = 1 ∧ b = 0) ∨ (a = 0 ∧ b = 1) ∨ (a = 1 ∧ b = 1)

/-- On a straight line of `n` steps an iteration that steps takes one whole step of the direction and keeps the error term. -/
theorem nextPlot_of_straight {n a b : Int} (hn : 0 < n) (hab : StraightUnit a b) (sx sy x y : Int) :
    nextPlot (n * a) (-(n * b)) sx sy ⟨x, y, n * a - n * b⟩ = ⟨x + sx * a, y + sy * b, n * a - n * b⟩ := by
  obtain ⟨rfl, rfl⟩ | ⟨rfl, rfl⟩ | ⟨rfl, rfl⟩ := hab
  · have hy : ¬2 * n ≤ n := by omega
    simp [nextPlot, hn.le, hy]
  · have hx : ¬2 * n ≤ n := by omega
    simp [nextPlot, hx, hn.not_gt]
  · simp [nextPlot, hn.le]

/-- A straight line of `n` steps takes `n` iterations of the loop. -/
theorem max_mul_of_straight {n a b : Int} (hn : 0 ≤ n) (hab : StraightUnit a b) : max (n * a) (n * b) = n := by
  obtain ⟨rfl, rfl⟩ | ⟨rfl, rfl⟩ | ⟨rfl, rfl⟩ := hab <;> simp [hn]

/-- The distance on one axis of `n` steps of `u`. -/
theorem abs_steps (x u : Int) (n : Nat) : |x + n * u - x| = n * |u| := by
  rw [add_sub_cancel_left, abs_mul, Nat.abs_cast]

/-- R161's sign toward the end of `n` steps of `u` is the sign of `u`. -/
theorem sign_mul_abs_steps (x u : Int) {n : Nat} (hn : 0 < n) : (if x < x + n * u then 1 else -1) * |u| = u := by
  have hend := add_sign_mul_abs x (x + n * u)
  rw [abs_steps, mul_left_comm] at hend
  exact (mul_left_cancel₀ (by omega) (add_left_cancel hend)).symm

section
variable {x y ux uy : Int} {n : Nat} (hstraight : StraightUnit |ux| |uy|)
include hstraight

/-- A straight line of `n` steps has `n + 1` plots. -/
theorem length_bresenham_of_straight : (bresenham x y (x + n * ux) (y + n * uy)).length = n + 1 := by
  have hlen := (segmentPlots_bresenham x y (x + n * ux) (y + n * uy)).length
  rw [abs_steps, abs_steps, max_mul_of_straight (Int.natCast_nonneg n) hstraight] at hlen
  exact_mod_cast hlen

/-- Plot `k` of a straight line is `k` steps from its start point, with the error term of the start. -/
theorem getElem?_bresenham_of_straight (k : Nat) (hk : k ≤ n) :
    (bresenham x y (x + n * ux) (y + n * uy))[k]? = some ⟨x + k * ux, y + k * uy, n * |ux| - n * |uy|⟩ := by
  have course := segmentPlots_bresenham x y (x + n * ux) (y + n * uy)
  have hlen := length_bresenham_of_straight hstraight (x := x) (y := y) (n := n)
  induction k with
  | zero =>
    have hhead := course.head
    rw [List.head?_eq_getElem?, abs_steps, abs_steps] at hhead
    rw [hhead]; simp
  | succ k ih =>
    have hstep := course.step k _ (ih (by omega))
    split at hstep
    · omega
    · rw [hstep, abs_steps, abs_steps, nextPlot_of_straight (by omega) hstraight,
        sign_mul_abs_steps x ux (by omega), sign_mul_abs_steps y uy (by omega)]
      congr 2 <;> push_cast <;> ring

end

/-- The eight directions of O45 are straight. -/
theorem straightUnit_of_mem {ux uy : Int}
    (h : (ux, uy) ∈ [((1 : Int), (0 : Int)), (-1, 0), (0, 1), (0, -1), (1, 1), (1, -1), (-1, 1), (-1, -1)]) :
    StraightUnit |ux| |uy| := by
  have hall : ∀ u ∈ [((1 : Int), (0 : Int)), (-1, 0), (0, 1), (0, -1), (1, 1), (1, -1), (-1, 1), (-1, -1)],
      StraightUnit |u.1| |u.2| := by decide
  exact hall _ h

/-- Settles O45: the line has `n + 1` plots, and plot `k` is `k` steps from the start point. -/
theorem straightLinesPlotEveryPixelBetween : Obligations.StraightLinesPlotEveryPixelBetween := by
  intro x y n ux uy hu
  have hstraight := straightUnit_of_mem hu
  refine List.ext_getElem? fun k => ?_
  rw [List.getElem?_map, List.getElem?_map]
  by_cases hk : k ≤ n
  · rw [getElem?_bresenham_of_straight hstraight k hk, List.getElem?_range (by omega)]
    rfl
  · have hlen := length_bresenham_of_straight hstraight (x := x) (y := y) (n := n)
    rw [List.getElem?_eq_none (by omega), List.getElem?_eq_none (by rw [List.length_range]; omega)]
    rfl

end Sys2Proof.Machine
end

section
/-! The palette and its mux (R180 to R186): the packed colour of an entry, CSET and GETCOLOR with in-range arguments, and
that GETCOLOR reads back what CSET set (R183). -/

namespace Sys2Proof.Machine

/-- A packed colour has red in bits 23..16, green in 15..8 and blue in 7..0 (R180). -/
theorem toNat_packRgb (e : Rgb) : (packRgb e).toNat = e.r.toNat * 2 ^ 16 + e.g.toNat * 2 ^ 8 + e.b.toNat := by
  rw [packRgb, toNat_append_eq, toNat_append_eq]
  ring

/-- Every colour index selects an entry, since a palette has 16. -/
theorem getElem?_eq_palEntry (pal : Palette) (i : Index) : pal[i.toNat]? = some (palEntry pal i) :=
  Vector.getElem?_eq_getElem i.isLt

/-- Settles O54: the index is below 16, and the mux packs the entry it selects. -/
theorem lookupPacksTheChosenEntry : Obligations.LookupPacksTheChosenEntry :=
  fun pal i => ⟨palEntry pal i, getElem?_eq_palEntry pal i, toNat_packRgb (palEntry pal i)⟩

/-- The checks of CSET pass exactly when the index and the three channels are in range. -/
theorem checksOf_cset_eq_none {cfg : Config} {c r g b : Int} :
    checksOf (.cset c r g b) cfg = none ↔
      (0 ≤ c ∧ c < 16) ∧ (0 ≤ r ∧ r < 256) ∧ (0 ≤ g ∧ g < 256) ∧ (0 ≤ b ∧ b < 256) := by
  simp [checksOf, firstFailure_eq_none, checkIndex, checkChannel, checkRange_eq_none]

/-- The check of GETCOLOR passes exactly when the index is in range. -/
theorem checksOf_getcolor_eq_none {cfg : Config} {c : Int} :
    checksOf (.getcolor c) cfg = none ↔ 0 ≤ c ∧ c < 16 := by
  simp [checksOf, firstFailure_eq_none, checkIndex, checkRange_eq_none]

/-- A checked index selects the entry its integer numbers. -/
theorem indexOf_toNat_eq {c : Int} (h : 0 ≤ c ∧ c < 16) : (indexOf c).toNat = c.toNat := by
  have hvalue := toNat_indexOf h
  omega

/-- Settles O48: the range checks pass, and CSET sets the one entry that `c` numbers. -/
theorem csetReplacesOneEntry : Obligations.CsetReplacesOneEntry := by
  intro s c r g b hc hr hg hb
  refine ⟨writtenPal (.cset c r g b) s, ⟨channelOf r, channelOf g, channelOf b⟩,
    exec_of_checks_pass (checksOf_cset_eq_none.mpr ⟨hc, hr, hg, hb⟩), ?entry,
    toNat_channelOf hr, toNat_channelOf hg, toNat_channelOf hb, ?others⟩
  case entry =>
    rw [← indexOf_toNat_eq hc]
    exact Vector.getElem?_set_self (indexOf c).isLt
  case others =>
    intro k hk
    rw [← indexOf_toNat_eq hc] at hk
    exact Vector.getElem?_set_ne (indexOf c).isLt hk.symm

/-- A byte field of a response word, as a number. -/
theorem toNat_byteField (v : BitVec 32) (k : Nat) : (v.extractLsb' k 8).toNat = v.toNat / 2 ^ k % 2 ^ 8 := by
  rw [BitVec.extractLsb'_toNat, Nat.shiftRight_eq_div_pow]

/-- A response word with the value of a packed colour carries its channels in its byte fields, under a zero byte (R180). -/
theorem byteFields_of_toNat_eq {v : BitVec 32} {e : Rgb}
    (hv : v.toNat = e.r.toNat * 2 ^ 16 + e.g.toNat * 2 ^ 8 + e.b.toNat) :
    v.extractLsb' 24 8 = 0 ∧ v.extractLsb' 16 8 = e.r ∧ v.extractLsb' 8 8 = e.g ∧ v.extractLsb' 0 8 = e.b := by
  have hr := e.r.isLt
  have hg := e.g.isLt
  have hb := e.b.isLt
  have hzero : (0 : Byte).toNat = 0 := rfl
  refine ⟨?_, ?_, ?_, ?_⟩
  all_goals
    apply BitVec.eq_of_toNat_eq
    rw [toNat_byteField, hv]
    omega

/-- Settles O49: the range check passes, and RESULT is the entry's packed colour, zero-extended. -/
theorem getcolorReturnsThePackedEntry : Obligations.GetcolorReturnsThePackedEntry := by
  intro s c hc
  have hvalue : (readResult (.getcolor c) s).toNat = (packRgb (palEntry s.pal (indexOf c))).toNat :=
    BitVec.toNat_setWidth_of_le (by decide)
  rw [toNat_packRgb] at hvalue
  refine ⟨palEntry s.pal (indexOf c), readResult (.getcolor c) s, ?_,
    exec_of_checks_pass (checksOf_getcolor_eq_none.mpr hc), hvalue, byteFields_of_toNat_eq hvalue⟩
  rw [← indexOf_toNat_eq hc, getElem?_eq_palEntry]

/-- Settles O50: GETCOLOR returns the entry (O49) of the palette that CSET leaves (O48); a CSET that reports an error only
raised it. -/
theorem csetThenGetcolorReadsBack : Obligations.CsetThenGetcolorReadsBack := by
  refine ⟨?readsBack, ?failing⟩
  case readsBack =>
    intro s c r g b hc hr hg hb
    obtain ⟨pal, e, hset, hentry, her, heg, heb, -⟩ := csetReplacesOneEntry s c r g b hc hr hg hb
    obtain ⟨e', v, hread, hget, hv, -⟩ := getcolorReturnsThePackedEntry
      { s with pal := pal, status := 0, errarg := 0, result := 0 } c hc
    obtain rfl : e = e' := Option.some.inj (hentry.symm.trans hread)
    refine ⟨_, _, hset, rfl, hget, ?_⟩
    rw [hv]
    push_cast
    rw [her, heg, heb]
  case failing =>
    intro s t c r g b h hstatus
    obtain ⟨e, -, rfl⟩ | ⟨-, rfl⟩ := exec_cases h
    · exact State.raiseError_pal e s
    · exact absurd rfl hstatus

end Sys2Proof.Machine
end

section
/-! Scan-out (R200 to R202): the whole effect of PRESENT, the frame it emits, and the frames of a second PRESENT and of the
first one after reset. -/

namespace Sys2Proof.Machine

/-- PRESENT has no range checks: it always emits the frame of the stores it finds, and writes a success response. -/
theorem exec_present (s : State) :
    exec .present s = .next
      { s with frameOut := some (frameOf s.cfg s.fb s.pal), status := 0, errarg := 0, result := 0 } :=
  exec_of_checks_pass rfl

/-- Settles O51: the frame is the scan of the stores before PRESENT, one element for each of the NPIX positions. -/
theorem presentEmitsTheWholeSnapshot : Obligations.PresentEmitsTheWholeSnapshot :=
  fun s => ⟨frameOf s.cfg s.fb s.pal, exec_present s, length_frameOf s.cfg s.fb s.pal,
    fun _ hp => getElem?_frameOf hp s.fb s.pal⟩

/-- Every pixel of a cleared buffer is 0, so its frame repeats the colour of entry 0. -/
theorem frameOf_nil (cfg : Config) (pal : Palette) :
    frameOf cfg [] pal = List.replicate cfg.npix (lookup pal 0) := by
  simp only [frameOf, nibRead_nil, List.map_const', List.length_range]

/-- Settles O53: a frame is a function of the parameters and the two stores, which PRESENT leaves alone, and reset clears
the buffer. -/
theorem repeatedAndFirstFrames : Obligations.RepeatedAndFirstFrames := by
  refine ⟨?repeated, ?first⟩
  case repeated =>
    intro s t u hst htu
    rw [exec_present] at hst htu
    cases hst
    cases htu
    rfl
  case first =>
    intro cfg pal host
    exact ⟨_, exec_present _, congrArg some (frameOf_nil cfg pal)⟩

end Sys2Proof.Machine
end

section
/-! Argument checks and responses (R220 to R237): a command's checks are the range checks of its listed arguments in field
order, the first failing one decides the error, and neither the checks nor what a command does reads the earlier response. -/

namespace Sys2Proof.Machine

/-- The range check of one listed argument (R224). -/
def ArgBound.check (a : ArgBound) : Option CmdError := checkRange a.bound a.field a.value

theorem ArgBound.check_eq_none {a : ArgBound} : a.check = none ↔ a.InRange := checkRange_eq_none

theorem ArgBound.check_of_not_inRange {a : ArgBound} (h : ¬a.InRange) : a.check = some ⟨statusArgOutOfRange, a.field⟩ :=
  checkRange_eq_some.mpr ⟨h, rfl⟩

/-- RDBYTE's address check is the range check of a natural number below NBYTES. -/
theorem checkAddr_eq_checkRange (cfg : Config) (addr : Nat) : checkAddr cfg addr = checkRange cfg.nbytes 0 addr := by
  simp only [checkAddr, checkRange, Int.natCast_nonneg, true_and, Int.ofNat_lt]

/-- The check of a command with one checked argument is that argument's. -/
theorem firstFailure_singleton (c : Option CmdError) : firstFailure [c] = c := by
  cases c <;> rfl

/-- A command's checks are those of the arguments that R74, R75 and R78 list, in the listed order. -/
theorem checksOf_eq_argBounds (i : Instr) (cfg : Config) :
    checksOf i cfg = firstFailure ((argBounds cfg i).map ArgBound.check) := by
  cases i with
  | rdbyte addr => exact (checkAddr_eq_checkRange cfg addr).trans (firstFailure_singleton _).symm
  | _ => rfl

theorem checksOf_eq_none_iff {i : Instr} {cfg : Config} :
    checksOf i cfg = none ↔ ∀ a ∈ argBounds cfg i, a.InRange := by
  simp only [checksOf_eq_argBounds, firstFailure_eq_none, List.forall_mem_map, ArgBound.check_eq_none]

/-- Checks that pass do not hide a later one that fails (R225). -/
theorem firstFailure_append_some {before : List (Option CmdError)} (h : ∀ c ∈ before, c = none) (e : CmdError)
    (after : List (Option CmdError)) : firstFailure (before ++ some e :: after) = some e := by
  induction before with
  | nil => rfl
  | cons c before ih =>
    obtain ⟨rfl, hrest⟩ := List.forall_mem_cons.mp h
    exact ih hrest

/-- Settles O10: the checks before it pass, so its check is the first that fails. -/
theorem firstArgumentOutOfRangeIsReported : Obligations.FirstArgumentOutOfRangeIsReported := by
  intro i s before after a hsplit hbefore ha
  have hpass : ∀ c ∈ before.map ArgBound.check, c = none :=
    List.forall_mem_map.mpr fun b hb => ArgBound.check_eq_none.mpr (hbefore b hb)
  have hfail : checksOf i s.cfg = some ⟨statusArgOutOfRange, a.field⟩ := by
    rw [checksOf_eq_argBounds, hsplit, List.map_append, List.map_cons, ArgBound.check_of_not_inRange ha,
      firstFailure_append_some hpass]
  exact exec_of_check_fails hfail

/-- Settles O11: a failed check reports ARG_OUT_OF_RANGE, and with none a command has its whole effect. -/
theorem commandSucceedsExactlyWhenItsArgumentsAreInRange :
    Obligations.CommandSucceedsExactlyWhenItsArgumentsAreInRange := by
  intro i s
  rw [← checksOf_eq_none_iff]
  cases hc : checksOf i s.cfg with
  | none => exact ⟨_, exec_of_checks_pass hc, iff_of_true rfl rfl, fun _ => rfl⟩
  | some e =>
    have hstatus : (s.raiseError e).status ≠ 0 := by
      rw [State.raiseError_status, (checksOf_some hc).1]; decide
    exact ⟨_, exec_of_check_fails hc, iff_of_false hstatus (Option.some_ne_none e), fun h => absurd h hstatus⟩

/-- Settles O12: an illegal word and a failed check only raise their error, and a command whose checks pass succeeds. -/
theorem failedCommandChangesOnlyTheResponse : Obligations.FailedCommandChangesOnlyTheResponse := by
  intro s t w rest hhost hstep hstatus
  obtain ⟨hh, -⟩ | ⟨pal, rest', hh, -⟩ | ⟨w', rest', e, hh, -, -, rfl⟩ | ⟨w', rest', i, hh, -, -, he⟩ := step_cases hstep
  · cases hhost.symm.trans hh
  · cases hhost.symm.trans hh
  · cases hhost.symm.trans hh
    rfl
  · cases hhost.symm.trans hh
    obtain ⟨e, -, rfl⟩ | ⟨-, rfl⟩ := exec_cases he
    · rfl
    · exact absurd rfl hstatus

/-! ### The earlier response (R227, R229) -/

/-- The whole effect of a command does not read the response before it. -/
theorem succeeded_response (i : Instr) (s : State) (st : BitVec 8) (ea : BitVec 3) (r : BitVec 32) :
    succeeded i { s with status := st, errarg := ea, result := r } = succeeded i s := by
  cases i <;> rfl

/-- A command overwrites the whole response, whether a check fails or not. -/
theorem exec_response (i : Instr) (s : State) (st : BitVec 8) (ea : BitVec 3) (r : BitVec 32) :
    exec i { s with status := st, errarg := ea, result := r } = exec i s := by
  rw [exec_eq_finish, exec_eq_finish, succeeded_response]
  cases checksOf i s.cfg <;> rfl

/-- Every word, legal or not, overwrites the whole response. -/
theorem runWord_response (w : CmdWord) (s : State) (st : BitVec 8) (ea : BitVec 3) (r : BitVec 32) :
    runWord w { s with status := st, errarg := ea, result := r } = runWord w s := by
  cases hd : decode w with
  | command i => rw [runWord_command hd, runWord_command hd, exec_response]
  | illegal e => rw [runWord_illegal hd, runWord_illegal hd]; rfl

/-- A step whose next input is a word runs it in a reset block, and stops in one that has not been reset (R252). -/
theorem step_word {s : State} {w : CmdWord} {rest : List HostInput} (hh : s.host = .command w :: rest) :
    step s = if s.wasReset then runWord w (s.accept rest) else .fault .commandBeforeReset := by
  unfold step; rw [hh]

/-- Settles O14: in a reset block the word overwrites the response, and otherwise there is no step, whatever the response. -/
theorem outcomeIgnoresTheEarlierResponse : Obligations.OutcomeIgnoresTheEarlierResponse := by
  intro s w rest st ea r hhost
  have hrun := runWord_response w (s.accept rest) st ea r
  rw [step_word hhost, ← hrun]
  exact step_word hhost

/-- Settles O16: such a step only empties the frame port, and the host's inputs stay at none. -/
theorem stepWithoutInputHoldsTheState : Obligations.StepWithoutInputHoldsTheState := by
  intro s hhost
  rw [step_idle hhost, State.accept, ← hhost]

end Sys2Proof.Machine
end

section
/-! Reset and the commands before it (R250 to R252): a reset step ends in the reset state, of which the state before it gives
only the parameters; before the first reset a command stops the block. -/

namespace Sys2Proof.Machine

/-- A reset step keeps only the parameters (R25): its next state is the reset state of the input's palette (R250, R251). -/
theorem step_reset_eq_afterReset {s : State} {pal : Palette} {rest : List HostInput} (hhost : s.host = .reset pal :: rest) :
    step s = .next (State.afterReset s.cfg pal rest) :=
  step_reset hhost

/-- Settles O17: the next state is the reset state, which two states with the same parameters and inputs share. -/
theorem resetInputSetsEveryElement : Obligations.ResetInputSetsEveryElement := by
  intro s pal rest hhost
  refine ⟨State.afterReset s.cfg pal rest, step_reset_eq_afterReset hhost, Memory.read_nil, rfl, rfl, rfl, rfl, rfl, rfl,
    rfl, rfl, ?_⟩
  intro s' hcfg hhost'
  rw [step_reset_eq_afterReset (hhost'.trans hhost), hcfg]

/-- A word presented to a block that has not been reset is a fault (R252). -/
theorem step_word_before_reset {s : State} {w : CmdWord} {rest : List HostInput} (hreset : s.wasReset = false)
    (hhost : s.host = .command w :: rest) : step s = .fault .commandBeforeReset := by
  rw [step_word hhost, hreset]
  exact if_neg Bool.false_ne_true

/-- Settles O19: a step that stops with a fault answers no next state. -/
theorem commandBeforeTheFirstResetHasNoStep : Obligations.CommandBeforeTheFirstResetHasNoStep := by
  intro s w rest hreset hhost
  have hfault := step_word_before_reset hreset hhost
  refine ⟨hfault, ?_⟩
  rintro ⟨t, hnext⟩
  cases hfault.symm.trans hnext

end Sys2Proof.Machine
end
